-- ==== Sys2Proof/Word.lean ====
section
/-! DEFINITION. The machine word (spec/00_scope.md R5, R6; decision D1) and the index of a memory cell. -/

namespace Sys2Proof

/-- A word: `W = 32` bits, read as a two's-complement signed integer (R5, R6, D1). UNVERIFIED, unsafe: the width is the
spec's own decision, log entry 1. -/
abbrev Word := BitVec 32

/-- The index of one of the 16 memory cells (R14, R31): the only indices `MemRead` and `MemWrite` are defined for. -/
abbrev CellIndex := Fin 16

end Sys2Proof
end

