-- ==== Sys2Proof/Config.lean ====
section
/-! DEFINITION. What the host fixes for a run: the two configuration values (R17) and the reset image (R19). -/

namespace Sys2Proof

/-- `BUS_SPEED` (R17): timing only. -/
inductive BusSpeed where
  | fast
  | medium
  | slow
  deriving DecidableEq, Repr

/-- `MEM_TYPE` (R17): timing only. -/
inductive MemType where
  | sram
  | dram
  deriving DecidableEq, Repr

/-- `DEFAULT_IMAGE` (R19, D7): the concrete seed program the spec uses where it needs one. It is one image among all:
`Machine.State.resetWith` takes any. -/
def Config.defaultImage : List Word :=
  [5006, 1006, 2007, 3003, 4008, 7000, 0, 0, 0, 0, 0, 0, 0, 0, 0, 0]

/-- The configuration `State.reset` holds. DESIGN CHOICE, unsafe: R19 leaves it to the host, log entry 5. -/
def Config.resetBusSpeed : BusSpeed := .fast

/-- The configuration `State.reset` holds. DESIGN CHOICE, unsafe: R19 leaves it to the host, log entry 5. -/
def Config.resetMemType : MemType := .sram

end Sys2Proof
end

