-- ==== Sys2Proof/Syntax.lean ====
section
/-! DEFINITION. The seven instructions (spec/30_encoding.md R54; opcode_table.json), each with the address field of its
word (R50). HALT has the field too and ignores it (R120); its trace record shows it (R146). -/

namespace Sys2Proof

/-- The instruction set: one constructor per row of opcode_table.json. -/
inductive Instr where
  | load  (address : Nat)
  | add   (address : Nat)
  | store (address : Nat)
  | sub   (address : Nat)
  | read  (address : Nat)
  | write (address : Nat)
  | halt  (address : Nat)
  deriving DecidableEq, Repr

/-- The address field of an instruction (R50). -/
def Instr.address : Instr → Nat
  | .load a => a
  | .add a => a
  | .store a => a
  | .sub a => a
  | .read a => a
  | .write a => a
  | .halt a => a

end Sys2Proof
end

