-- ==== Sys2Proof/WellFormed.lean ====
section
/-! DEFINITION. Which instruction terms a word can hold: the address field is three decimal digits (R50, `ADDR_MAX` of R4). -/

namespace Sys2Proof

/-- The address field lies in 0 to 999 (R50). An address of 16 or more is well formed: it is decoded, and executing it
is the condition `AddressRange` (R56). -/
abbrev Instr.WellFormed (i : Instr) : Prop := i.address ≤ 999

end Sys2Proof
end

