-- ==== Sys2Proof/Decode.lean ====
section
/-! DEFINITION. Decoding a word (spec/30_encoding.md R51, R52), the encoder (R50, R54) and the assembly lines of R58. -/

namespace Sys2Proof

/-- What a word decodes to (R52): a legal instruction, or an unknown opcode, which keeps the word. -/
inductive Decoded where
  | legal (i : Instr)
  | unknown (word : Word)
  deriving DecidableEq, Repr

/-- The opcode map of R54, read from the number: none of 1 to 7 is "any other value" (R76). -/
def Instr.ofOpcode (opcode address : Nat) : Option Instr :=
  match opcode with
  | 1 => some (.load address)
  | 2 => some (.add address)
  | 3 => some (.store address)
  | 4 => some (.sub address)
  | 5 => some (.read address)
  | 6 => some (.write address)
  | 7 => some (.halt address)
  | _ => none

/-- `decode` of R52: legal iff `1000 <= word <= 7999` as a signed number; `opcode = word div 1000`,
`address = word mod 1000`. -/
def decode (w : Word) : Decoded :=
  if 1000 ≤ w.toInt ∧ w.toInt ≤ 7999 then
    match Instr.ofOpcode (w.toInt.toNat / 1000) (w.toInt.toNat % 1000) with
    | some i => .legal i
    | none => .unknown w
  else .unknown w

/-- The opcode number of an instruction (R54). -/
def Instr.opcode : Instr → Nat
  | .load _ => 1
  | .add _ => 2
  | .store _ => 3
  | .sub _ => 4
  | .read _ => 5
  | .write _ => 6
  | .halt _ => 7

/-- The word of an instruction: `opcode*1000 + address` (R50). -/
def encode (i : Instr) : Word := BitVec.ofNat 32 (i.opcode * 1000 + i.address)

/-- The instruction the decoder reads from a word given as a number (the table's rows are decimal, so a row's word is a
number and not a pattern of bits). `w` is an `nbits`-bit number, so the bits above `nbits` are zero as they stand; a number
that no 32-bit word holds is refused (log entry 20). -/
def decodeTableWord (_nbits w : Nat) : Option Instr :=
  if w < 2 ^ 32 then
    match decode (BitVec.ofNat 32 w) with
    | .legal i => some i
    | .unknown _ => none
  else none

/-- One line of the assembly syntax of R58 (D12). -/
inductive AsmLine where
  | load  (address : Nat)
  | add   (address : Nat)
  | store (address : Nat)
  | sub   (address : Nat)
  | read  (address : Nat)
  | write (address : Nat)
  | halt
  | data  (n : Int)
  deriving DecidableEq, Repr

/-- The instruction an assembly line stands for; `HALT` is the canonical 7000 (R56, R58). A `DATA` line stands for none. -/
def AsmLine.instr : AsmLine → Option Instr
  | .load a => some (.load a)
  | .add a => some (.add a)
  | .store a => some (.store a)
  | .sub a => some (.sub a)
  | .read a => some (.read a)
  | .write a => some (.write a)
  | .halt => some (.halt 0)
  | .data _ => none

/-- The word a line assembles to (R58); nothing where the operand is outside the range of R58's table. -/
def assembleLine : AsmLine → Option Word
  | .data n => if -2147483648 ≤ n ∧ n ≤ 2147483647 then some (BitVec.ofInt 32 n) else none
  | l => l.instr.bind fun i => if i.WellFormed then some (encode i) else none

/-- A listing assembles line by line, the line at position `i` into `M[i]` (R58). -/
def assemble : List AsmLine → Option (List Word)
  | [] => some []
  | l :: rest => (assembleLine l).bind fun w => (assemble rest).map fun ws => w :: ws

/-- A line as R58 writes it: the mnemonic in capitals and the operand as a decimal numeral. -/
def AsmLine.text : AsmLine → String
  | .load a => "LOAD " ++ toString a
  | .add a => "ADD " ++ toString a
  | .store a => "STORE " ++ toString a
  | .sub a => "SUB " ++ toString a
  | .read a => "READ " ++ toString a
  | .write a => "WRITE " ++ toString a
  | .halt => "HALT"
  | .data n => "DATA " ++ toString n

end Sys2Proof
end

