-- ==== Sys2Proof/Machine/State.lean ====
section
/-! DEFINITION. The state (spec/10_state.md R10 to R18), its reset value (R19, R160), and the reasons a step can stop. -/

namespace Sys2Proof.Machine

/-- The run-state register `ST` (R13). All but `running` are terminal. -/
inductive RunState where
  | running
  | haltedNormal
  | haltedBounds
  | haltedError
  deriving DecidableEq, Repr

/-- An item of the input stream (R15): a line that did not parse as an integer, or the integer it parsed to, of any size. -/
inductive InputItem where
  | invalid
  | int (v : Int)
  deriving DecidableEq, Repr

/-- A fatal condition with the value it records: what `raise` takes in R7 (R131, R132, R133, R147). -/
inductive Halt where
  | pcBounds (pc : Word)
  | unknownOpcode (word : Word)
  | addressRange (address : Nat)
  deriving DecidableEq, Repr

/-- The value field of an instruction record (R146). -/
inductive RecordValue where
  | word (v : Word)
  | invalidInput
  | none
  deriving DecidableEq, Repr

/-- A record of the trace stream: `Instr(op, address, value)`, whose first two fields are the instruction itself (R146),
or `Err(cause, info)` (R147). UNVERIFIED, unsafe: the contents are the spec's decisions D11 and D13, log entry 12. -/
inductive Record where
  | instr (i : Instr) (value : RecordValue)
  | err (h : Halt)
  deriving DecidableEq, Repr

/-- The memory array `M` of 16 words (R14, R30): the image it was loaded with at reset (R19) and the cells that differ from
it now. An unlisted cell reads as its image word. The canonical form is `Memory.wf` (Machine/Ops.lean). There is no byte
view (R37): the unit is the word (log entry 9). -/
structure Memory where
  image : List Word
  cells : List (Nat × Word)
  deriving DecidableEq, Repr

/-- Everything the spec gives the machine: the hardware state `(PC, AC, ST, M)`, the interface state `(IN, OUT, TRACE)`, and
the configuration of the run (R10). -/
structure State where
  /-- `PC`, the index of the next word to fetch (R12). -/
  pc : Word
  /-- `AC`, the accumulator (R11). -/
  ac : Word
  /-- `ST`, the run state (R13). -/
  st : RunState
  /-- `M`, with the run's `IMAGE` (R14, R19). -/
  mem : Memory
  /-- `IN`, the items not yet consumed, first item first (R15). -/
  input : List InputItem
  /-- `OUT`, the words emitted so far, oldest first (R16). -/
  output : List Word
  /-- `TRACE`, the records emitted so far, oldest first (R18). -/
  trace : List Record
  /-- `BUS_SPEED`, constant for the run (R17). -/
  busSpeed : BusSpeed
  /-- `MEM_TYPE`, constant for the run (R17). -/
  memType : MemType
  deriving DecidableEq, Repr

/-- Why a step stops with a fault: never. Every condition of the hardware, the fatal ones too, is a next state with the run
state and the record its rule gives (R130 to R137), and an access outside the 16 cells cannot be written down (R36). Nobody
raises a fault, so the type is safe. -/
inductive Fault where
  deriving DecidableEq, Repr

/-- Why a step is refused. -/
inductive Refusal where
  /-- Raised only by an arm of `exec` that has no meaning yet; safe. No arm of this model raises it. -/
  | notModelled (mnemonic : String)
  deriving DecidableEq, Repr

/-- The state at the start of a run with the given image, input and configuration (R19, R160). -/
def State.resetWith (image : List Word) (input : List InputItem) (busSpeed : BusSpeed) (memType : MemType) : State :=
  { pc := 0, ac := 0, st := .running, mem := { image := image, cells := [] }, input := input, output := [], trace := [],
    busSpeed := busSpeed, memType := memType }

/-- The machine right after reset (R19) with the spec's `DEFAULT_IMAGE` (D7), no input supplied yet and the configuration of
Config.lean. DESIGN CHOICE, unsafe: the image, the input and the configuration are the host's arguments, log entries 4 and 5. -/
def State.reset : State :=
  State.resetWith Config.defaultImage [] Config.resetBusSpeed Config.resetMemType

end Sys2Proof.Machine
end

