-- ==== Sys2Proof/Machine/Ops.lean ====
section
/-! DEFINITION. The named operations over memory, the streams and the registers, and taking a fatal condition
(spec/20_memory.md R33, R34; 40_cycle.md R77, R78; 60_exceptions.md R131 to R137). -/

namespace Sys2Proof.Machine

/-- The word cell `a` was loaded with at reset (R19); an image list that stops early goes on in zeros (95_test_vectors.md,
notation). -/
def Memory.imageWord (m : Memory) (a : Nat) : Word := m.image.getD a 0

/-- The canonical form: 16 image words; listed indices strictly rising, below 16, and no listed word equal to its image word. -/
abbrev Memory.wf (m : Memory) : Prop :=
  m.image.length = 16 ∧ m.cells.Pairwise (fun p q => p.1 < q.1) ∧
    ∀ p ∈ m.cells, p.1 < 16 ∧ p.2 ≠ m.imageWord p.1

/-- `MemRead(a, 1)` (R33). -/
def Memory.read (m : Memory) (a : CellIndex) : Word := (m.cells.lookup a.val).getD (m.imageWord a.val)

/-- `cells` without an entry for `a`. -/
def Memory.dropCell (a : Nat) (cells : List (Nat × Word)) : List (Nat × Word) := cells.filter fun p => p.1 != a

/-- `cells` with `(a, v)` put before the first entry of a higher index. -/
def Memory.insertCell (a : Nat) (v : Word) : List (Nat × Word) → List (Nat × Word)
  | [] => [(a, v)]
  | p :: rest => if a < p.1 then (a, v) :: p :: rest else p :: Memory.insertCell a v rest

/-- `MemWrite(a, 1, v)` (R34): writing the image word removes the entry, so the form stays canonical. -/
def Memory.write (m : Memory) (a : CellIndex) (v : Word) : Memory :=
  if v = m.imageWord a.val then { m with cells := Memory.dropCell a.val m.cells }
  else { m with cells := Memory.insertCell a.val v (Memory.dropCell a.val m.cells) }

/-- The 16 words `M[0..15]` in order, as the final report dumps them (R148). -/
def Memory.words (m : Memory) : List Word := (List.finRange 16).map m.read

/-- The cell a number indexes, if there is one: `0 <= n < 16`, never wrapped or masked (R36, R53). -/
def cellOf (n : Nat) : Option CellIndex := if h : n < 16 then some ⟨n, h⟩ else none

/-- Step 1 of the cycle: the cell `PC` indexes, nothing where `PC` is outside [0,16) (R72). -/
def pcCell (s : State) : Option CellIndex := if 0 ≤ s.pc.toInt then cellOf s.pc.toInt.toNat else none

/-- Write of `AC` (R11). -/
def State.setAc (v : Word) (s : State) : State := { s with ac := v }

/-- `MemWrite` on the state (R34). -/
def State.storeCell (a : CellIndex) (v : Word) (s : State) : State := { s with mem := s.mem.write a v }

/-- Write of `ST` (R13). -/
def State.setSt (st : RunState) (s : State) : State := { s with st := st }

/-- `emit OUT(v)` (R7, R16). -/
def State.emitOut (v : Word) (s : State) : State := { s with output := s.output ++ [v] }

/-- `emit TRACE(r)` (R7, R18). -/
def State.emitTrace (r : Record) (s : State) : State := { s with trace := s.trace ++ [r] }

/-- `InputNext()` (R7, R15): the first item and the state without it, nothing while `IN` is empty. -/
def State.inputNext (s : State) : Option (InputItem × State) :=
  match s.input with
  | [] => none
  | item :: rest => some (item, { s with input := rest })

/-- Step 6 of the cycle: `PC <- PC + 1` (R78). -/
def State.advance (s : State) : State := { s with pc := s.pc + 1 }

/-- Steps 5 and 6 of an instruction's cycle: its record, then the program counter (R77, R78, R146). -/
def State.retire (i : Instr) (v : RecordValue) (s : State) : State := (s.emitTrace (.instr i v)).advance

/-- The value of an item READ accepts: an integer in 0 to 999, both included (R110). -/
def InputItem.accepted : InputItem → Option Word
  | .invalid => none
  | .int v => if 0 ≤ v ∧ v ≤ 999 then some (BitVec.ofInt 32 v) else none

/-- The terminal state a fatal condition leads to (R130). -/
def Halt.terminal : Halt → RunState
  | .pcBounds _ => .haltedBounds
  | .unknownOpcode _ => .haltedError
  | .addressRange _ => .haltedError

/-- `PC` after a fatal condition: unchanged by `PcBounds`, one more after the others (R130, R131, R132, R133). -/
def Halt.nextPc : Halt → Word → Word
  | .pcBounds _, pc => pc
  | .unknownOpcode _, pc => pc + 1
  | .addressRange _, pc => pc + 1

/-- Taking a fatal condition, the one entry for all three (R136): `ST` becomes the terminal state, one error record is
appended, `PC` steps as the condition's rule says. Nothing is saved and there is no handler and no return (R137). -/
def takeFatal (h : Halt) (s : State) : State :=
  { s with st := h.terminal, trace := s.trace ++ [.err h], pc := h.nextPc s.pc }

end Sys2Proof.Machine
end

