-- ==== Sys2Proof/Machine/Operands.lean ====
section
/-! DEFINITION. The one operand form of the hardware: the direct address (spec/30_encoding.md R53, 41_data_transfer.md). -/

namespace Sys2Proof.Machine

/-- An instruction whose operand is the cell `address`: with an address of 16 or more the condition `AddressRange` is
taken before any effect (R76, R133). UNVERIFIED, unsafe: the range test is the spec's decision D4, log entry 3. -/
def withCell (address : Nat) (s : State) (k : CellIndex → Host.Outcome State Fault Refusal) :
    Host.Outcome State Fault Refusal :=
  match cellOf address with
  | some c => k c
  | none => .next (takeFatal (.addressRange address) s)

end Sys2Proof.Machine
end

