-- ==== Sys2Proof/Machine/Arithmetic.lean ====
section
/-! DEFINITION. ADD and SUB and their integer laws (spec/42_arithmetic.md). There are no flags (R20). -/

namespace Sys2Proof.Machine

/-- `wrap_W` (R7): the word congruent to `n` modulo `2^32`. UNVERIFIED, unsafe: that overflow wraps is the spec's decision
D2, log entry 2. -/
def wrapWord (n : Int) : Word := BitVec.ofInt 32 n

/-- Steps 4 to 6 of an instruction that puts an exact result, narrowed by `wrap_W`, into `AC` (R102). -/
def accumulate (i : Instr) (exact : Int) (s : State) : State :=
  (s.setAc (wrapWord exact)).retire i (.word (wrapWord exact))

/-- ADD (R100): `AC <- wrap_W(AC + MemRead(address, 1))`. -/
def execAdd (address : Nat) (s : State) : Host.Outcome State Fault Refusal :=
  withCell address s fun c => .next (accumulate (.add address) (s.ac.toInt + (s.mem.read c).toInt) s)

/-- SUB (R101): `AC <- wrap_W(AC - MemRead(address, 1))`, accumulator minus memory. -/
def execSub (address : Nat) (s : State) : Host.Outcome State Fault Refusal :=
  withCell address s fun c => .next (accumulate (.sub address) (s.ac.toInt - (s.mem.read c).toInt) s)

end Sys2Proof.Machine
end

