-- ==== Sys2Proof/Machine/Control.lean ====
section
/-! DEFINITION. HALT (spec/44_control.md). The hardware has no control transfer (R121) and no system instruction (R122). -/

namespace Sys2Proof.Machine

/-- HALT (R120): `ST <- HALTED_NORMAL`; the address field is not looked at (R56) and stands in the record (R146). -/
def execHalt (address : Nat) (s : State) : Host.Outcome State Fault Refusal :=
  .next ((s.setSt .haltedNormal).retire (.halt address) .none)

end Sys2Proof.Machine
end

