-- ==== Sys2Proof/Machine/DataTransfer.lean ====
section
/-! DEFINITION. LOAD and STORE (spec/41_data_transfer.md). -/

namespace Sys2Proof.Machine

/-- LOAD (R90): `AC <- MemRead(address, 1)`; the record shows the new `AC`. -/
def execLoad (address : Nat) (s : State) : Host.Outcome State Fault Refusal :=
  withCell address s fun c => .next ((s.setAc (s.mem.read c)).retire (.load address) (.word (s.mem.read c)))

/-- STORE (R91): `MemWrite(address, 1, AC)`; the record shows the value stored. -/
def execStore (address : Nat) (s : State) : Host.Outcome State Fault Refusal :=
  withCell address s fun c => .next ((s.storeCell c s.ac).retire (.store address) (.word s.ac))

end Sys2Proof.Machine
end

