-- ==== Sys2Proof/Machine/InputOutput.lean ====
section
/-! DEFINITION. READ and WRITE (spec/43_io.md). -/

namespace Sys2Proof.Machine

/-- READ (R110): takes one item; a valid one is stored, any other is recorded as the invalid-input notice and memory stays
(R134). While `IN` is empty the cycle waits: the state does not change and the next step tries again (R82). DESIGN CHOICE,
safe: a wait is a step to the same state, log entry 7. -/
def execRead (address : Nat) (s : State) : Host.Outcome State Fault Refusal :=
  withCell address s fun c =>
    match s.inputNext with
    | none => .next s
    | some (item, s') =>
      match item.accepted with
      | some v => .next ((s'.storeCell c v).retire (.read address) (.word v))
      | none => .next (s'.retire (.read address) .invalidInput)

/-- WRITE (R111): `emit OUT(MemRead(address, 1))`; the record shows the value emitted. -/
def execWrite (address : Nat) (s : State) : Host.Outcome State Fault Refusal :=
  withCell address s fun c => .next ((s.emitOut (s.mem.read c)).retire (.write address) (.word (s.mem.read c)))

end Sys2Proof.Machine
end

