-- ==== Sys2Proof/Machine/Dispatch.lean ====
section
/-! DEFINITION. The dispatch on the opcode (spec/40_cycle.md R76): steps 4 to 6 of the cycle of a legal word. -/

namespace Sys2Proof.Machine

def exec (i : Instr) (s : State) : Host.Outcome State Fault Refusal :=
  match i with
  | .load address => Sys2Proof.Machine.execLoad address s
  | .add address => Sys2Proof.Machine.execAdd address s
  | .store address => Sys2Proof.Machine.execStore address s
  | .sub address => Sys2Proof.Machine.execSub address s
  | .read address => Sys2Proof.Machine.execRead address s
  | .write address => Sys2Proof.Machine.execWrite address s
  | .halt address => Sys2Proof.Machine.execHalt address s

end Sys2Proof.Machine
end

