-- ==== Sys2Proof/Machine/Cycle.lean ====
section
/-! DEFINITION. One cycle (spec/40_cycle.md R70), and placing a word where the next cycle fetches. -/

namespace Sys2Proof.Machine

/-- Steps 3 to 6 of a cycle whose fetched word is `w` (R74, R76): an unknown opcode is fatal (R132), a legal word runs. -/
def runWord (w : Word) (s : State) : Host.Outcome State Fault Refusal :=
  match decode w with
  | .unknown word => .next (takeFatal (.unknownOpcode word) s)
  | .legal i => exec i s

/-- `cycle()` of R70. In a terminal state there is no cycle and nothing changes (R79; log entry 8). Step 2, the delay, is
timing only and dropped (R176; log entry 13). -/
def cycle (s : State) : Host.Outcome State Fault Refusal :=
  match s.st with
  | .running =>
    match pcCell s with
    | none => .next (takeFatal (.pcBounds s.pc) s)
    | some c => runWord (s.mem.read c) s
  | .haltedNormal => .next s
  | .haltedBounds => .next s
  | .haltedError => .next s

/-- `s` with the word `w` in the cell `PC` indexes; unchanged where `PC` indexes none, since no fetch happens there. -/
def placeAtPc (w : Word) (s : State) : State :=
  match pcCell s with
  | none => s
  | some c => s.storeCell c w

end Sys2Proof.Machine
end

