-- ==== Sys2Proof/Machine/Step.lean ====
section
/-! DEFINITION. The step of the machine: one cycle (spec/40_cycle.md R70, R79). -/

namespace Sys2Proof.Machine

/-- One step is one `cycle()` (R70), a wait of a READ (R82), or nothing in a terminal state (R79). -/
def step (s : State) : Host.Outcome State Fault Refusal := Sys2Proof.Machine.cycle s

/-- `s` with the word `w` placed where `step` fetches its next instruction, `M[PC]` (R74). Every instruction is one word
(R50), so `nbits` adds nothing: the bits of `w` above it are zero. -/
def State.withFetchWord (s : State) (_nbits w : Nat) : State := placeAtPc (BitVec.ofNat 32 w) s

end Sys2Proof.Machine
end

