-- ==== Sys2Proof/Machine/Timing.lean ====
section
/-! DEFINITION. The delay model as data (spec/70_reset_and_hazards.md R175, R177). No step depends on it (R176). -/

namespace Sys2Proof.Machine

/-- `DELAY_BASE` in milliseconds (R4, R175). -/
def delayBase : BusSpeed → Nat
  | .fast => 10
  | .medium => 50
  | .slow => 100

/-- `DELAY_DRAM_EXTRA` where it applies, in milliseconds (R4, R175). -/
def delayExtra : MemType → Nat
  | .sram => 0
  | .dram => 20

/-- `delay(busSpeed, memoryType)` in milliseconds (R175), spent once in every executed cycle, before its fetch (R73, R177). -/
def delay (b : BusSpeed) (m : MemType) : Nat := delayBase b + delayExtra m

/-- The milliseconds of delay of the run up to now: one `DELAY` per executed cycle, and `PC` counts them (R26, R177). -/
def delaySpent (s : State) : Nat := s.pc.toNat * delay s.busSpeed s.memType

/-- The console's menu numbers of `BUS_SPEED`, in listing order (R17, D14; UNVERIFIED, safe: log entry 19). -/
def busSpeedOfMenu : Nat → Option BusSpeed
  | 1 => some .fast
  | 2 => some .medium
  | 3 => some .slow
  | _ => none

/-- The console's menu numbers of `MEM_TYPE`, in listing order (R17, D14; UNVERIFIED, safe: log entry 19). -/
def memTypeOfMenu : Nat → Option MemType
  | 1 => some .sram
  | 2 => some .dram
  | _ => none

end Sys2Proof.Machine
end

