-- ==== Sys2Proof/Machine/HostMoves.lean ====
section
/-! DEFINITION. The moves of the host (spec/40_cycle.md R81, 70_reset_and_hazards.md R160, R161, R180), the final report
(60_exceptions.md R148) and the numbers of states and causes (10_state.md R13, 60_exceptions.md R138). -/

namespace Sys2Proof.Machine

/-- The host appends items to `IN`, at any time (R15, R81). It removes and reorders nothing (R180). -/
def hostSupply (items : List InputItem) (s : State) : State := { s with input := s.input ++ items }

/-- The final report (R148), less the elapsed time, which the host measures (R178). -/
structure Report where
  memory : List Word
  ac : Word
  pc : Word
  deriving DecidableEq, Repr

/-- The report the host reads out once `ST` is terminal; nothing while the run goes on (R18, R148, R180). -/
def hostReport (s : State) : Option Report :=
  match s.st with
  | .running => none
  | .haltedNormal => some ⟨s.mem.words, s.ac, s.pc⟩
  | .haltedBounds => some ⟨s.mem.words, s.ac, s.pc⟩
  | .haltedError => some ⟨s.mem.words, s.ac, s.pc⟩

/-- The host's reset between runs (R160): only in a terminal state (R161), and nothing of the old state but the image the
hardware is loaded with survives (R19, R160). UNVERIFIED, unsafe: decisions D8 and D16, log entry 17. -/
def hostReset (input : List InputItem) (busSpeed : BusSpeed) (memType : MemType) (s : State) : Option State :=
  match s.st with
  | .running => none
  | .haltedNormal => some (State.resetWith s.mem.image input busSpeed memType)
  | .haltedBounds => some (State.resetWith s.mem.image input busSpeed memType)
  | .haltedError => some (State.resetWith s.mem.image input busSpeed memType)

/-- The number of a run state (R13, D11). -/
def RunState.code : RunState → Nat
  | .running => 0
  | .haltedNormal => 1
  | .haltedBounds => 2
  | .haltedError => 3

/-- The causes of R138. -/
inductive Cause where
  | none
  | pcBounds
  | unknownOpcode
  | addressRange
  | invalidInput
  deriving DecidableEq, Repr

/-- The number of a cause (R138, D11). -/
def Cause.code : Cause → Nat
  | .none => 0
  | .pcBounds => 1
  | .unknownOpcode => 2
  | .addressRange => 3
  | .invalidInput => 4

/-- The cause field of `Err(cause, info)` (R147). -/
def Halt.cause : Halt → Cause
  | .pcBounds _ => .pcBounds
  | .unknownOpcode _ => .unknownOpcode
  | .addressRange _ => .addressRange

/-- The info field of `Err(cause, info)`: the value of `PC`, the fetched word, the address field (R147). -/
def Halt.info : Halt → Int
  | .pcBounds pc => pc.toInt
  | .unknownOpcode word => word.toInt
  | .addressRange address => (address : Int)

/-- The cause a trace record shows: that of an error record, the notice of an invalid READ, otherwise none (R134, R138). -/
def Record.cause : Record → Cause
  | .err h => h.cause
  | .instr _ .invalidInput => .invalidInput
  | .instr _ (.word _) => .none
  | .instr _ .none => .none

/-- The terminal state, or `RUNNING`, that the host reads off the end of the trace (R13, 90_conflicts.md C9). -/
def shownState (trace : List Record) : RunState :=
  match trace.getLast? with
  | some (.err h) => h.terminal
  | some (.instr (.halt _) _) => .haltedNormal
  | some (.instr _ _) => .running
  | none => .running

/-- The word a record says was emitted on `OUT`: the value of a WRITE (R146). -/
def Record.written : Record → Option Word
  | .instr (.write _) (.word v) => some v
  | _ => none

end Sys2Proof.Machine
end

