-- ==== Sys2Proof/Safety.lean ====
section
/-! DEFINITION. The terms claims about runs use: terminal and waiting states, and the invariants of a run. -/

namespace Sys2Proof.Machine

/-- The run has ended (R79). -/
abbrev Terminal (s : State) : Prop := s.st ≠ .running

/-- The engine waits for input: the next word is a READ with an address in range, and `IN` is empty (R82). -/
def Waiting (s : State) : Prop :=
  s.st = .running ∧ s.input = [] ∧
    ∃ c a : CellIndex, s.pc.toInt = (c.val : Int) ∧ decode (s.mem.read c) = .legal (.read a.val)

/-- `0 <= PC <= 16` (R26). -/
abbrev PcInRun (s : State) : Prop := 0 ≤ s.pc.toInt ∧ s.pc.toInt ≤ 16

/-- The trace counts the cycles: one record for each executed cycle, which `PC` counts (R26, R77), and one more for the bounds
halt, which only happens at 16 (R131). -/
abbrev TraceCounts (s : State) : Prop :=
  (s.trace.length : Int) = s.pc.toInt + (if s.st = .haltedBounds then 1 else 0) ∧ (s.st = .haltedBounds → s.pc = 16)

/-- The streams agree with the state: the end of the trace shows `ST` (R13), and `OUT` is the values of the WRITE records
(R16, R146). -/
abbrev StreamsAgree (s : State) : Prop :=
  s.st = shownState s.trace ∧ s.output = s.trace.filterMap Record.written

/-- The invariant of a run. -/
abbrev RunInv (s : State) : Prop := s.mem.wf ∧ PcInRun s ∧ TraceCounts s ∧ StreamsAgree s

end Sys2Proof.Machine
end

