-- ==== Sys2Proof/Certificates/Slice0/Obligations.lean ====
section
/-! DEFINITION. The statements for the provers, in groups: encoding, the step, the seven instructions, their frames, whole-machine
rules, the host's moves, and invariants. Each docstring names the rules of spec/ it formalises; where a clause is a decision or
an inference of the spec itself, or a choice of the model, it says so and names the decision or the log entry. -/

open Sys2Proof Sys2Proof.Machine

/-! ## Encoding -/

/-- R50, R54: decoding the word of a well-formed instruction gives it back, every address 0 to 999 included. -/
def Obligations.DecodeOfEncode : Prop := ∀ i : Instr, i.WellFormed → decode (encode i) = .legal i

/-- R50, R54: a word that decodes to an instruction is that instruction's one encoding, and the address field is in range. -/
def Obligations.EncodeOfDecode : Prop :=
  ∀ (w : Word) (i : Instr), decode w = .legal i → i.WellFormed ∧ encode i = w

/-- R52 (decision D5): legal exactly from 1000 to 7999 as a signed number, with opcode `word div 1000` and address
`word mod 1000`; any other word is unknown and kept. -/
def Obligations.DecodeByRange : Prop :=
  ∀ w : Word,
    (1000 ≤ w.toInt ∧ w.toInt ≤ 7999 →
      ∃ i, decode w = .legal i ∧ (i.opcode : Int) = w.toInt / 1000 ∧ (i.address : Int) = w.toInt % 1000) ∧
    (¬ (1000 ≤ w.toInt ∧ w.toInt ≤ 7999) → decode w = .unknown w)

/-- R51's formula `opcode = word / 1000`, `address = word % 1000`, under both conventions of division. That truncating
(`tdiv`, `tmod`) and flooring (`fdiv`, `fmod`) agree, that a rejected word has no opcode 1 to 7 under either, and that `Unknown`
keeps the word is R52's own inference (from R51 and R76; decision D5, log entry 23). -/
def Obligations.DecodeUnderEitherDivision : Prop :=
  ∀ w : Word,
    (∀ i, decode w = .legal i →
      (i.opcode : Int) = w.toInt.tdiv 1000 ∧ (i.address : Int) = w.toInt.tmod 1000 ∧
        (i.opcode : Int) = w.toInt.fdiv 1000 ∧ (i.address : Int) = w.toInt.fmod 1000) ∧
    (∀ u, decode w = .unknown u →
      u = w ∧ ¬ (1 ≤ w.toInt.tdiv 1000 ∧ w.toInt.tdiv 1000 ≤ 7) ∧ ¬ (1 ≤ w.toInt.fdiv 1000 ∧ w.toInt.fdiv 1000 ≤ 7))

/-- 95_test_vectors.md V1 to V12 and S8, and one word of each opcode of R54. -/
def Obligations.SpecWordsDecode : Prop :=
  decode 1000 = .legal (.load 0) ∧ decode 1015 = .legal (.load 15) ∧ decode 1016 = .legal (.load 16) ∧
    decode 2011 = .legal (.add 11) ∧ decode 3003 = .legal (.store 3) ∧ decode 4008 = .legal (.sub 8) ∧
    decode 5006 = .legal (.read 6) ∧ decode 6999 = .legal (.write 999) ∧ decode 7000 = .legal (.halt 0) ∧
    decode 7999 = .legal (.halt 999) ∧ decode 8000 = .unknown 8000 ∧ decode 8002 = .unknown 8002 ∧
    decode 999 = .unknown 999 ∧ decode 0 = .unknown 0 ∧ decode (-1) = .unknown (-1) ∧
    decode (-7000) = .unknown (-7000) ∧ decode 2147483647 = .unknown 2147483647 ∧
    decode (-2147483648) = .unknown (-2147483648)

/-- R58 (decision D12): what each line of assembly assembles to, that an operand outside the table's range assembles to
nothing, and that the line at position `i` of a listing gives the word at position `i`. -/
def Obligations.ListingsAssemble : Prop :=
  (∀ a : Nat, a ≤ 999 →
    assembleLine (.load a) = some (BitVec.ofNat 32 (1000 + a)) ∧ assembleLine (.add a) = some (BitVec.ofNat 32 (2000 + a)) ∧
      assembleLine (.store a) = some (BitVec.ofNat 32 (3000 + a)) ∧ assembleLine (.sub a) = some (BitVec.ofNat 32 (4000 + a)) ∧
      assembleLine (.read a) = some (BitVec.ofNat 32 (5000 + a)) ∧ assembleLine (.write a) = some (BitVec.ofNat 32 (6000 + a))) ∧
  (∀ a : Nat, 1000 ≤ a →
    ∀ l ∈ ([.load a, .add a, .store a, .sub a, .read a, .write a] : List AsmLine), assembleLine l = none) ∧
  assembleLine .halt = some 7000 ∧
  (∀ n : Int, -2147483648 ≤ n → n ≤ 2147483647 → ∃ w, assembleLine (.data n) = some w ∧ w.toInt = n) ∧
  (∀ n : Int, n < -2147483648 ∨ 2147483647 < n → assembleLine (.data n) = none) ∧
  (∀ (ls : List AsmLine) (ws : List Word), assemble ls = some ws →
    ws.length = ls.length ∧ ∀ (i : Nat) (l : AsmLine), ls[i]? = some l → ∃ w, ws[i]? = some w ∧ assembleLine l = some w)

/-! ## The step -/

/-- R70, R74, R76: while the engine runs and `PC` indexes a cell whose word decodes to an instruction, the step is `exec` of that
instruction at that state. Nothing is added around it: the record and the `PC` increment (R77, R78) are inside `exec`. -/
def Obligations.StepRunsDecodedInstruction : Prop :=
  ∀ (s : State) (c : CellIndex) (i : Instr), s.st = .running → s.pc.toInt = (c.val : Int) →
    decode (s.mem.read c) = .legal i → step s = exec i s

/-- R132, R55: a fetched word outside 1000 to 7999 ends the run in `HALTED_ERROR` with one error record that shows the word, and
`PC + 1`; nothing else changes. -/
def Obligations.UnknownOpcodeHalts : Prop :=
  ∀ (s : State) (c : CellIndex), s.st = .running → s.pc.toInt = (c.val : Int) →
    ((s.mem.read c).toInt < 1000 ∨ 7999 < (s.mem.read c).toInt) →
    step s = .next { s with
      st := .haltedError, trace := s.trace ++ [.err (.unknownOpcode (s.mem.read c))], pc := s.pc + 1 }

/-- R131: a cycle that begins with `PC` outside [0,16) ends the run in `HALTED_BOUNDS` with one error record that shows `PC`;
nothing else changes, `PC` included. Where `PC` is in the range of R26, it is 16. -/
def Obligations.PcOutOfBoundsHalts : Prop :=
  ∀ s : State, s.st = .running → ¬ (0 ≤ s.pc.toInt ∧ s.pc.toInt < 16) →
    step s = .next { s with st := .haltedBounds, trace := s.trace ++ [.err (.pcBounds s.pc)] } ∧ (PcInRun s → s.pc = 16)

/-- R79: in a terminal state the engine performs no further cycle: any number of steps changes nothing. That the model's step
then answers the same state is log entry 8. -/
def Obligations.TerminalStateStays : Prop :=
  ∀ (s : State) (n : Nat), Terminal s → Sys2Proof.core.run n s = .next s

/-- R130, R136: every condition the hardware raises leaves a state, so an executed cycle and a bounds halt answer one. That a
waiting READ (no step in R82, R15) and a terminal state (no cycle in R79) answer a next state too, the same state, is the model's
choice, log entries 7 and 8. So no step faults and none is refused. -/
def Obligations.EveryStepAnswersNext : Prop := ∀ s : State, ∃ t, step s = .next t

/-- R57 (an inference of the spec from R52, R55, R56): the outcome of a cycle by the value of the fetched word. -/
def Obligations.OutcomeByWordValue : Prop :=
  ∀ (s : State) (c : CellIndex), s.st = .running → s.pc.toInt = (c.val : Int) →
    ((s.mem.read c).toInt < 1000 ∨ 8000 ≤ (s.mem.read c).toInt →
      ∃ t, step s = .next t ∧ t.st = .haltedError ∧ t.trace = s.trace ++ [.err (.unknownOpcode (s.mem.read c))]) ∧
    (∀ k a : Nat, 1 ≤ k → k ≤ 6 → a ≤ 15 → (s.mem.read c).toInt = (k : Int) * 1000 + (a : Int) →
      ∃ i, i.opcode = k ∧ i.address = a ∧ step s = exec i s) ∧
    (∀ k a : Nat, 1 ≤ k → k ≤ 6 → 16 ≤ a → a ≤ 999 → (s.mem.read c).toInt = (k : Int) * 1000 + (a : Int) →
      ∃ t, step s = .next t ∧ t.st = .haltedError ∧ t.trace = s.trace ++ [.err (.addressRange a)]) ∧
    (7000 ≤ (s.mem.read c).toInt ∧ (s.mem.read c).toInt ≤ 7999 → ∃ t, step s = .next t ∧ t.st = .haltedNormal)

/-! ## The instructions: result and completion -/

/-- LOAD, R90 (record: decision D13): for every cell, `AC` becomes its word, and nothing else changes but the record and `PC`. -/
def Obligations.LoadResult : Prop :=
  ∀ (c : CellIndex) (s : State),
    exec (.load c.val) s = .next { s with
      ac := s.mem.read c, trace := s.trace ++ [.instr (.load c.val) (.word (s.mem.read c))], pc := s.pc + 1 }

/-- ADD, R100, R102 (wrap: decision D2; record: D13): `AC` becomes the 32-bit word of the exact sum. -/
def Obligations.AddResult : Prop :=
  ∀ (c : CellIndex) (s : State),
    exec (.add c.val) s = .next { s with
      ac := s.ac + s.mem.read c, trace := s.trace ++ [.instr (.add c.val) (.word (s.ac + s.mem.read c))], pc := s.pc + 1 }

/-- STORE, R91 (record: decision D13): the cell reads as `AC`, every other cell as before, and nothing else changes but the record
and `PC`. -/
def Obligations.StoreResult : Prop :=
  ∀ (c : CellIndex) (s : State), ∃ t,
    exec (.store c.val) s = .next t ∧ (∀ b, t.mem.read b = if b = c then s.ac else s.mem.read b) ∧
      t = { s with mem := t.mem, trace := s.trace ++ [.instr (.store c.val) (.word s.ac)], pc := s.pc + 1 }

/-- SUB, R101, R102 (wrap: decision D2; record: D13): `AC` becomes the 32-bit word of the exact difference, accumulator minus
memory. -/
def Obligations.SubResult : Prop :=
  ∀ (c : CellIndex) (s : State),
    exec (.sub c.val) s = .next { s with
      ac := s.ac - s.mem.read c, trace := s.trace ++ [.instr (.sub c.val) (.word (s.ac - s.mem.read c))], pc := s.pc + 1 }

/-- READ of a valid item, R110 (record: decision D13): the item is taken, the cell holds its value, every other cell reads as
before. -/
def Obligations.ReadValidResult : Prop :=
  ∀ (c : CellIndex) (s : State) (v : Int) (rest : List InputItem), s.input = .int v :: rest → 0 ≤ v → v ≤ 999 →
    ∃ t w, exec (.read c.val) s = .next t ∧ w.toInt = v ∧ (∀ b, t.mem.read b = if b = c then w else s.mem.read b) ∧
      t = { s with
        mem := t.mem, input := rest, trace := s.trace ++ [.instr (.read c.val) (.word w)], pc := s.pc + 1 }

/-- READ of an item that did not parse or lies outside 0 to 999, R134: the item is taken, the notice is the record, `PC` steps, the
run goes on, and memory does not change. -/
def Obligations.ReadInvalidResult : Prop :=
  ∀ (c : CellIndex) (s : State) (item : InputItem) (rest : List InputItem), s.input = item :: rest →
    (item = .invalid ∨ ∃ v : Int, item = .int v ∧ (v < 0 ∨ 999 < v)) →
    exec (.read c.val) s = .next { s with
      input := rest, trace := s.trace ++ [.instr (.read c.val) .invalidInput], pc := s.pc + 1 }

/-- WRITE, R111 (record: decision D13): the cell's word is appended to `OUT`; nothing else changes but the record and `PC`. -/
def Obligations.WriteResult : Prop :=
  ∀ (c : CellIndex) (s : State),
    exec (.write c.val) s = .next { s with
      output := s.output ++ [s.mem.read c], trace := s.trace ++ [.instr (.write c.val) (.word (s.mem.read c))],
      pc := s.pc + 1 }

/-- HALT, R120 (address ignored: decision D6; record: D13): whatever the address, `ST` becomes `HALTED_NORMAL`, and nothing else
changes but the record and `PC`. -/
def Obligations.HaltResult : Prop :=
  ∀ (a : Nat) (s : State),
    exec (.halt a) s = .next { s with
      st := .haltedNormal, trace := s.trace ++ [.instr (.halt a) .none], pc := s.pc + 1 }

/-- R133 (wholly the spec's decision D4, log entry 3): the six memory instructions with an address of 16 or more end the run in
`HALTED_ERROR`, record the address, step `PC`, and have no other effect; a READ takes no item and does not wait. -/
def Obligations.AddressRangeHalts : Prop :=
  ∀ (a : Nat) (s : State), 16 ≤ a →
    ∀ i ∈ ([.load a, .add a, .store a, .sub a, .read a, .write a] : List Instr),
      exec i s = .next { s with
        st := .haltedError, trace := s.trace ++ [.err (.addressRange a)], pc := s.pc + 1 }

/-- R102 (32 bits: decision D1; wrap: D2): ADD and SUB leave in `AC` the value congruent to the exact result modulo `2^32`, which
is the exact result wherever that fits a signed 32-bit word. -/
def Obligations.AccumulatorWraps : Prop :=
  ∀ (c : CellIndex) (s : State) (i : Instr) (n : Int),
    (i = .add c.val ∧ n = s.ac.toInt + (s.mem.read c).toInt ∨ i = .sub c.val ∧ n = s.ac.toInt - (s.mem.read c).toInt) →
    ∃ t, exec i s = .next t ∧ t.ac.toInt % 4294967296 = n % 4294967296 ∧
      -2147483648 ≤ t.ac.toInt ∧ t.ac.toInt ≤ 2147483647 ∧
      (-2147483648 ≤ n ∧ n ≤ 2147483647 → t.ac.toInt = n)

/-! ## Frames -/

/-- R90, R100, R101, R24: LOAD, ADD and SUB, with any address: every cell reads as before, the image, both streams but the trace and
the configuration stay; with an address in range `ST` stays, with any other `AC` stays. -/
def Obligations.LoadAddSubFrame : Prop :=
  ∀ (a : Nat) (s t : State), ∀ i ∈ ([.load a, .add a, .sub a] : List Instr), exec i s = .next t →
    (∀ b, t.mem.read b = s.mem.read b) ∧ t.mem.image = s.mem.image ∧ t.input = s.input ∧ t.output = s.output ∧
      t.busSpeed = s.busSpeed ∧ t.memType = s.memType ∧ (a < 16 → t.st = s.st) ∧ (16 ≤ a → t.ac = s.ac)

/-- R91, R110, R24 (range test: decision D4): STORE and READ, with any address: the cell stored to is `cellOf a`, every other cell reads as before, and with
no such cell every cell does; `AC`, `OUT`, the image and the configuration stay; STORE leaves `IN`; in range `ST` stays, and
out of range `IN` stays. -/
def Obligations.StoreReadFrame : Prop :=
  ∀ (a : Nat) (s t : State), ∀ i ∈ ([.store a, .read a] : List Instr), exec i s = .next t →
    (∀ c, cellOf a = some c → ∀ b, b ≠ c → t.mem.read b = s.mem.read b) ∧
      (cellOf a = none → ∀ b, t.mem.read b = s.mem.read b) ∧ t.mem.image = s.mem.image ∧ t.ac = s.ac ∧
      t.output = s.output ∧ t.busSpeed = s.busSpeed ∧ t.memType = s.memType ∧ (i = .store a → t.input = s.input) ∧
      (a < 16 → t.st = s.st) ∧ (16 ≤ a → t.input = s.input)

/-- R111, R120, R24: WRITE and HALT, with any address: every cell reads as before, `AC`, `IN`, the image and the configuration stay;
HALT leaves `OUT`; WRITE in range leaves `ST`, out of range `OUT`. -/
def Obligations.WriteHaltFrame : Prop :=
  ∀ (a : Nat) (s t : State), ∀ i ∈ ([.write a, .halt a] : List Instr), exec i s = .next t →
    (∀ b, t.mem.read b = s.mem.read b) ∧ t.mem.image = s.mem.image ∧ t.ac = s.ac ∧ t.input = s.input ∧
      t.busSpeed = s.busSpeed ∧ t.memType = s.memType ∧ (i = .halt a → t.output = s.output) ∧
      (i = .write a → a < 16 → t.st = s.st) ∧ (i = .write a → 16 ≤ a → t.output = s.output)

/-! ## Memory -/

/-- R34: `MemWrite` sets the one cell and leaves every other cell, and every register, unchanged. -/
def Obligations.MemWriteSetsOneCell : Prop :=
  ∀ (s : State) (a : CellIndex) (v : Word),
    (s.storeCell a v).mem.read a = v ∧ (∀ b, b ≠ a → (s.storeCell a v).mem.read b = s.mem.read b) ∧
      (s.storeCell a v).pc = s.pc ∧ (s.storeCell a v).ac = s.ac ∧ (s.storeCell a v).st = s.st

/-- R41 (an inference of the spec): a LOAD after a STORE to the same cell gives the value stored; a LOAD of any other cell gives what
it held before. -/
def Obligations.StoreThenLoad : Prop :=
  ∀ (c : CellIndex) (s : State), ∃ t,
    exec (.store c.val) s = .next t ∧ (∃ u, exec (.load c.val) t = .next u ∧ u.ac = s.ac) ∧
      ∀ b : CellIndex, b ≠ c → ∃ u, exec (.load b.val) t = .next u ∧ u.ac = s.mem.read b

/-- R44, R171 (inferences of the spec): a STORE into the word after its own is executed as the very next instruction; where `AC` is no
legal word, that next cycle ends the run. -/
def Obligations.StoredWordIsExecutedNext : Prop :=
  ∀ (s : State) (c d : CellIndex), s.st = .running → s.pc.toInt = (c.val : Int) → d.val = c.val + 1 →
    decode (s.mem.read c) = .legal (.store d.val) →
    ∃ t, step s = .next t ∧ (∀ i, decode s.ac = .legal i → step t = exec i t) ∧
      (∀ w, decode s.ac = .unknown w → ∃ u, step t = .next u ∧ u.st = .haltedError)

/-- The model's own form (log entry 9): two canonical memories of one image that read alike in all 16 cells are the same data. -/
def Obligations.CanonicalMemoriesAgree : Prop :=
  ∀ m n : Memory, m.wf → n.wf → m.image = n.image → (∀ a, m.read a = n.read a) → m = n

/-- R110, R55 (95_test_vectors.md P9): a READ never plants a legal instruction: a cell it changes holds 0 to 999, which decodes as
unknown. -/
def Obligations.ReadPlantsNoInstruction : Prop :=
  ∀ (a : Nat) (s t : State), exec (.read a) s = .next t → ∀ b, t.mem.read b ≠ s.mem.read b →
    0 ≤ (t.mem.read b).toInt ∧ (t.mem.read b).toInt ≤ 999 ∧ decode (t.mem.read b) = .unknown (t.mem.read b)

/-! ## Whole-machine rules -/

/-- R78: every executed cycle adds exactly one to `PC`, whatever the word, and without wrapping. A cycle is executed when `PC` indexes
a cell and the engine does not wait (R82). -/
def Obligations.ExecutedCycleAddsOneToPc : Prop :=
  ∀ (s : State) (c : CellIndex), s.st = .running → s.pc.toInt = (c.val : Int) → ¬ Waiting s →
    ∃ t, step s = .next t ∧ t.pc.toInt = (c.val : Int) + 1

/-- R77 (one record per executed cycle: decision D13): an executed cycle appends exactly one record, an error record exactly when the
run ends in `HALTED_ERROR`. -/
def Obligations.ExecutedCycleAppendsOneRecord : Prop :=
  ∀ (s : State) (c : CellIndex), s.st = .running → s.pc.toInt = (c.val : Int) → ¬ Waiting s →
    ∃ t r, step s = .next t ∧ t.trace = s.trace ++ [r] ∧ (t.st = .haltedError ↔ ∃ h, r = .err h)

/-- R82: a waiting READ changes nothing for as long as no item comes, any item supplied lets its cycle complete, and it is the only
hold: a running engine whose step changes nothing is waiting. -/
def Obligations.ReadIsTheOnlyHold : Prop :=
  (∀ (s : State) (n : Nat), Waiting s → Sys2Proof.core.run n s = .next s) ∧
  (∀ (s : State) (item : InputItem) (rest : List InputItem), Waiting s →
    ∃ t, step (hostSupply (item :: rest) s) = .next t ∧ t.pc = s.pc + 1 ∧ t.input = rest) ∧
  (∀ s : State, s.st = .running → step s = .next s → Waiting s)

/-- R11, R24: `AC` is changed by LOAD, ADD and SUB and by nothing else. -/
def Obligations.AccumulatorWriters : Prop :=
  ∀ s t : State, step s = .next t → t.ac ≠ s.ac →
    ∃ c a : CellIndex, s.st = .running ∧ s.pc.toInt = (c.val : Int) ∧
      (decode (s.mem.read c) = .legal (.load a.val) ∨ decode (s.mem.read c) = .legal (.add a.val) ∨
        decode (s.mem.read c) = .legal (.sub a.val))

/-- R31, R24: a cell is changed only by a STORE or a READ whose address is that cell. -/
def Obligations.MemoryWriters : Prop :=
  ∀ (s t : State) (b : CellIndex), step s = .next t → t.mem.read b ≠ s.mem.read b →
    ∃ c : CellIndex, s.st = .running ∧ s.pc.toInt = (c.val : Int) ∧
      (decode (s.mem.read c) = .legal (.store b.val) ∨ decode (s.mem.read c) = .legal (.read b.val))

/-- R15, R24 (items as parse results: decision D8): a step leaves `IN` alone or takes exactly its first item, and then it runs a READ
with an address in range. -/
def Obligations.InputTakenOnlyByRead : Prop :=
  ∀ s t : State, step s = .next t → t.input ≠ s.input →
    ∃ (c a : CellIndex) (item : InputItem), s.st = .running ∧ s.pc.toInt = (c.val : Int) ∧
      decode (s.mem.read c) = .legal (.read a.val) ∧ s.input = item :: t.input

/-- R16, R24 (`OUT` as a stream of its own: decision D13): a step leaves `OUT` alone or appends one word, the word of the cell that a
WRITE names. -/
def Obligations.OutputAppendedOnlyByWrite : Prop :=
  ∀ s t : State, step s = .next t → t.output ≠ s.output →
    ∃ c a : CellIndex, s.st = .running ∧ s.pc.toInt = (c.val : Int) ∧
      decode (s.mem.read c) = .legal (.write a.val) ∧ t.output = s.output ++ [s.mem.read a]

/-- R13 (`HALTED_ERROR` on an address out of range: decision D4): which step takes a running engine to which terminal state, in both
directions. -/
def Obligations.RunStateTransitions : Prop :=
  ∀ s t : State, s.st = .running → step s = .next t →
    (t.st = .haltedNormal ↔
      ∃ (c : CellIndex) (a : Nat), s.pc.toInt = (c.val : Int) ∧ decode (s.mem.read c) = .legal (.halt a)) ∧
    (t.st = .haltedBounds ↔ ¬ (0 ≤ s.pc.toInt ∧ s.pc.toInt < 16)) ∧
    (t.st = .haltedError ↔
      ∃ c : CellIndex, s.pc.toInt = (c.val : Int) ∧
        ((∃ w, decode (s.mem.read c) = .unknown w) ∨
          ∃ i, decode (s.mem.read c) = .legal i ∧ i.opcode ≤ 6 ∧ 16 ≤ i.address))

/-- R83: a step that takes a running engine to `HALTED_BOUNDS` or `HALTED_ERROR` changes nothing but `ST`, `TRACE` and, for
`HALTED_ERROR` only, `PC`, which is one more than the index of the failing word. -/
def Obligations.FatalConditionIsPrecise : Prop :=
  ∀ s t : State, s.st = .running → step s = .next t → (t.st = .haltedBounds ∨ t.st = .haltedError) →
    t = { s with st := t.st, trace := t.trace, pc := t.pc } ∧ (t.st = .haltedBounds → t.pc = s.pc) ∧
      (t.st = .haltedError → ∃ c : CellIndex, s.pc.toInt = (c.val : Int) ∧ t.pc.toInt = (c.val : Int) + 1)

/-- R10, R17: nothing changes the configuration or the image during a run. A wait and a terminal state's step answer
the same state (log entries 7 and 8). -/
def Obligations.RunParametersConstant : Prop :=
  ∀ s t : State, step s = .next t →
    t.busSpeed = s.busSpeed ∧ t.memType = s.memType ∧ t.mem.image = s.mem.image

/-- R17, R80 (an inference of the spec): the configuration affects only timing: two runs that differ in it alone differ in it alone
after any number of steps, waits and the steps of a terminal state (log entries 7 and 8) counted as steps. -/
def Obligations.ConfigurationAffectsNothing : Prop :=
  ∀ (n : Nat) (s t : State) (b : BusSpeed) (m : MemType), Sys2Proof.core.run n s = .next t →
    Sys2Proof.core.run n { s with busSpeed := b, memType := m } = .next { t with busSpeed := b, memType := m }

/-! ## The host -/

/-- R81, R80 (items may come at any time: decision D8): items the host appends before a step that does not wait are untouched by it
and change nothing else; the step of a terminal state (log entry 8) is one of them. -/
def Obligations.SupplyCommutesWithStep : Prop :=
  ∀ (s t : State) (items : List InputItem), ¬ Waiting s → step s = .next t →
    step (hostSupply items s) = .next (hostSupply items t)

/-- R160: what reset leaves, for any image, input and configuration, and that word 0 is the entry point: the first step runs it. -/
def Obligations.ResetLeaves : Prop :=
  ∀ (image : List Word) (input : List InputItem) (b : BusSpeed) (m : MemType),
    (State.resetWith image input b m).pc = 0 ∧ (State.resetWith image input b m).ac = 0 ∧
      (State.resetWith image input b m).st = .running ∧
      (image.length = 16 → ∀ a : CellIndex, image[a.val]? = some ((State.resetWith image input b m).mem.read a)) ∧
      (State.resetWith image input b m).output = [] ∧ (State.resetWith image input b m).trace = [] ∧
      (State.resetWith image input b m).input = input ∧ (State.resetWith image input b m).busSpeed = b ∧
      (State.resetWith image input b m).memType = m ∧
      ∀ i, decode ((State.resetWith image input b m).mem.read 0) = .legal i →
        step (State.resetWith image input b m) = exec i (State.resetWith image input b m)

/-- The model's own choice of launch state (log entries 4 and 5): `State.reset` is the reset of R160 with the spec's
`DEFAULT_IMAGE` (R19, D7), no input yet and Fast/SRAM. -/
def Obligations.ResetTakesDefaultImage : Prop :=
  State.reset.mem.words = [5006, 1006, 2007, 3003, 4008, 7000, 0, 0, 0, 0, 0, 0, 0, 0, 0, 0] ∧
    State.reset = State.resetWith State.reset.mem.image [] .fast .sram

/-- R161 (decision D16, fresh stream: D8; log entry 17): the host can reset only in a terminal state, and the new state is that of
R160 with the run's image: two states with one image give the same one, so nothing else of the old run is left. -/
def Obligations.HostResetForgetsTheRun : Prop :=
  ∀ (s s' : State) (input : List InputItem) (b : BusSpeed) (m : MemType),
    (s.st = .running → hostReset input b m s = none) ∧
    (Terminal s → hostReset input b m s = some (State.resetWith s.mem.image input b m)) ∧
    (Terminal s → Terminal s' → s.mem.image = s'.mem.image → hostReset input b m s = hostReset input b m s')

/-- R148 (elapsed time left to the host, R178): in every terminal state the report is the 16 words in order, `AC` and `PC`; while the
run goes on there is none. -/
def Obligations.ReportAfterTheRun : Prop :=
  ∀ s : State,
    (s.st = .running → hostReport s = none) ∧
    (Terminal s → ∃ ws, hostReport s = some ⟨ws, s.ac, s.pc⟩ ∧ ws.length = 16 ∧
      ∀ a : CellIndex, ws[a.val]? = some (s.mem.read a))

/-- R175: the delay function at all six configurations. -/
def Obligations.DelayTable : Prop :=
  delay .fast .sram = 10 ∧ delay .fast .dram = 30 ∧ delay .medium .sram = 50 ∧ delay .medium .dram = 70 ∧
    delay .slow .sram = 100 ∧ delay .slow .dram = 120

/-- R177 (an inference of the spec from R70 and R26): every executed cycle adds one delay, the bounds halt none. The model has no
time (log entry 13): the delay spent is its own quantity, `delaySpent`, which is `PC` times `DELAY`, so the claim is that `PC`
counts the executed cycles of R177. -/
def Obligations.OneDelayPerExecutedCycle : Prop :=
  (∀ (s : State) (c : CellIndex), s.st = .running → s.pc.toInt = (c.val : Int) → ¬ Waiting s →
    ∃ t, step s = .next t ∧ delaySpent t = delaySpent s + delay s.busSpeed s.memType) ∧
  (∀ s : State, s.st = .running → ¬ (0 ≤ s.pc.toInt ∧ s.pc.toInt < 16) →
    ∃ t, step s = .next t ∧ delaySpent t = delaySpent s)

/-! ## Invariants -/

/-- Every step keeps the memory's canonical form (the model's own, log entry 9; R14's 16 words), a wait and a terminal state's
step (log entries 7 and 8) included. -/
def Obligations.StepKeepsMemoryForm : Prop := ∀ s t : State, s.mem.wf → step s = .next t → t.mem.wf

/-- R26 (an inference of the spec): every step keeps `0 <= PC <= 16`, a wait and a terminal state's step (log entries 7 and 8)
included. -/
def Obligations.StepKeepsPcInRun : Prop := ∀ s t : State, PcInRun s → step s = .next t → PcInRun t

/-- Every step keeps the invariant of a run. Its first clause, the memory's canonical form, is the model's own choice (log entry 9).
The others are `0 <= PC <= 16` (R26, an inference of the spec), one record per executed cycle so that `PC` counts them, and one
more for the bounds halt, which is only at 16 (R77, R131; record contents: decisions D11 and D13, log entry 12), the end of the
trace showing `ST` (R13), and `OUT` equal to the values of the WRITE records (R16, R146, D13). A wait and a terminal state's step
(log entries 7 and 8) keep it too. -/
def Obligations.StepKeepsRunInv : Prop := ∀ s t : State, RunInv s → step s = .next t → RunInv t

/-- R19, R26: the invariant of a run holds after every reset with an image of 16 words. Its memory-form clause is the model's own
choice (log entry 9), and so is the last clause, at `State.reset`: its image, input and configuration are log entries 4 and 5. -/
def Obligations.RunInvAtReset : Prop :=
  (∀ (image : List Word) (input : List InputItem) (b : BusSpeed) (m : MemType), image.length = 16 →
    RunInv (State.resetWith image input b m)) ∧
  RunInv State.reset

/-- R27 (an inference of the spec): from any state with `0 <= PC <= 16` and an input item for each cell still to run, the engine is in
a terminal state within 17 steps. That the steps left after an earlier halt still answer a state, the same one, is log entry 8. -/
def Obligations.RunEndsWithinSeventeenSteps : Prop :=
  ∀ s : State, PcInRun s → 16 - s.pc.toInt ≤ (s.input.length : Int) →
    ∃ t, Sys2Proof.core.run 17 s = .next t ∧ Terminal t
end

