-- ==== Sys2Proof/Laws/Memory.lean ====
section
/-! SUPPORT. Reading and writing memory: what a read gives after a write, and that every operation keeps the canonical form. -/

namespace Sys2Proof.Machine

@[simp] theorem Memory.write_image (m : Memory) (a : CellIndex) (v : Word) : (m.write a v).image = m.image := by
  unfold Memory.write; split <;> rfl

@[simp] theorem Memory.write_imageWord (m : Memory) (a : CellIndex) (v : Word) (b : Nat) :
    (m.write a v).imageWord b = m.imageWord b := by
  simp [Memory.imageWord]

theorem Memory.lookup_dropCell_self (a : Nat) (cells : List (Nat × Word)) :
    (Memory.dropCell a cells).lookup a = none := by
  simp only [Memory.dropCell]
  induction cells with
  | nil => rfl
  | cons p rest ih =>
    by_cases h : p.1 = a
    · simp [h, ih]
    · rw [List.filter_cons_of_pos (by simpa using h)]
      obtain ⟨b, w⟩ := p
      have hb : (a == b) = false := by simpa using fun e => h e.symm
      simp [List.lookup_cons, hb, ih]

theorem Memory.lookup_dropCell_other {a b : Nat} (h : b ≠ a) (cells : List (Nat × Word)) :
    (Memory.dropCell a cells).lookup b = cells.lookup b := by
  simp only [Memory.dropCell]
  induction cells with
  | nil => rfl
  | cons p rest ih =>
    obtain ⟨c, w⟩ := p
    by_cases hc : c = a
    · subst hc
      have hb : (b == c) = false := by simpa using h
      simp [List.lookup_cons, ih, hb]
    · rw [List.filter_cons_of_pos (by simpa using hc)]
      simp [List.lookup_cons, ih]

theorem Memory.lookup_insertCell_self (a : Nat) (v : Word) (cells : List (Nat × Word))
    (h : cells.lookup a = none) : (Memory.insertCell a v cells).lookup a = some v := by
  induction cells with
  | nil => simp [Memory.insertCell]
  | cons p rest ih =>
    obtain ⟨b, w⟩ := p
    unfold Memory.insertCell
    split
    · rw [List.lookup_cons]; simp
    · cases hb : a == b with
      | true => simp [List.lookup_cons, hb] at h
      | false =>
        rw [List.lookup_cons, hb] at h
        rw [List.lookup_cons, hb]
        exact ih h

theorem Memory.lookup_insertCell_other {a b : Nat} (h : b ≠ a) (v : Word) (cells : List (Nat × Word)) :
    (Memory.insertCell a v cells).lookup b = cells.lookup b := by
  have hb : (b == a) = false := by simpa using h
  induction cells with
  | nil => simp [Memory.insertCell, List.lookup_cons, hb]
  | cons p rest ih =>
    obtain ⟨c, w⟩ := p
    unfold Memory.insertCell
    split
    · simp [List.lookup_cons, hb]
    · simp [List.lookup_cons, ih]

/-- A read after a write to the same cell gives the word written, in any memory. -/
@[simp] theorem Memory.read_write_self (m : Memory) (a : CellIndex) (v : Word) : (m.write a v).read a = v := by
  unfold Memory.read
  rw [Memory.write_imageWord]
  unfold Memory.write
  split
  · next h => simp [Memory.lookup_dropCell_self, ← h]
  · simp [Memory.lookup_insertCell_self, Memory.lookup_dropCell_self]

/-- A write leaves every other cell alone, in any memory. -/
theorem Memory.read_write_other (m : Memory) {a b : CellIndex} (v : Word) (h : b ≠ a) :
    (m.write a v).read b = m.read b := by
  have hv : b.val ≠ a.val := fun e => h (Fin.ext e)
  unfold Memory.read
  rw [Memory.write_imageWord]
  unfold Memory.write
  split
  · simp [Memory.lookup_dropCell_other hv]
  · simp [Memory.lookup_insertCell_other hv, Memory.lookup_dropCell_other hv]

theorem Memory.read_write (m : Memory) (a b : CellIndex) (v : Word) :
    (m.write a v).read b = if b = a then v else m.read b := by
  split
  · next h => simp [h]
  · next h => exact m.read_write_other v h

/-- A memory with nothing listed reads as its image. -/
@[simp] theorem Memory.read_image (image : List Word) (a : CellIndex) :
    Memory.read { image := image, cells := [] } a = image.getD a.val 0 := rfl

theorem Memory.mem_dropCell {a : Nat} {cells : List (Nat × Word)} {p : Nat × Word} :
    p ∈ Memory.dropCell a cells ↔ p ∈ cells ∧ p.1 ≠ a := by
  simp [Memory.dropCell]

theorem Memory.mem_insertCell {a : Nat} {v : Word} {cells : List (Nat × Word)} {p : Nat × Word} :
    p ∈ Memory.insertCell a v cells ↔ p = (a, v) ∨ p ∈ cells := by
  induction cells with
  | nil => simp [Memory.insertCell]
  | cons q rest ih =>
    unfold Memory.insertCell
    split
    · simp
    · simp only [List.mem_cons, ih]; tauto

theorem Memory.pairwise_insertCell {a : Nat} (v : Word) {cells : List (Nat × Word)}
    (hp : cells.Pairwise (fun p q => p.1 < q.1)) (ha : ∀ p ∈ cells, p.1 ≠ a) :
    (Memory.insertCell a v cells).Pairwise (fun p q => p.1 < q.1) := by
  induction cells with
  | nil => simp [Memory.insertCell]
  | cons q rest ih =>
    obtain ⟨hq, hrest⟩ := List.pairwise_cons.mp hp
    have haq : q.1 ≠ a := ha q (by simp)
    unfold Memory.insertCell
    split
    · next hlt =>
      refine List.pairwise_cons.mpr ⟨fun p hp' => ?_, hp⟩
      rcases List.mem_cons.mp hp' with rfl | hmem
      · exact hlt
      · exact lt_trans hlt (hq p hmem)
    · next hge =>
      refine List.pairwise_cons.mpr ⟨fun p hp' => ?_, ih hrest fun p hp' => ha p (by simp [hp'])⟩
      rcases Memory.mem_insertCell.mp hp' with rfl | hmem
      · exact lt_of_le_of_ne (not_lt.mp hge) haq
      · exact hq p hmem

/-- Writing keeps the canonical form. -/
theorem Memory.write_wf {m : Memory} (h : m.wf) (a : CellIndex) (v : Word) : (m.write a v).wf := by
  obtain ⟨hl, hp, hc⟩ := h
  have hdrop : (Memory.dropCell a.val m.cells).Pairwise (fun p q => p.1 < q.1) := hp.filter _
  refine ⟨by simpa using hl, ?_, fun p hmem => ?_⟩
  · unfold Memory.write
    split
    · exact hdrop
    · exact Memory.pairwise_insertCell v hdrop fun p hm => (Memory.mem_dropCell.mp hm).2
  · rw [Memory.write_imageWord]
    unfold Memory.write at hmem
    split at hmem
    · exact hc p (Memory.mem_dropCell.mp hmem).1
    · next hne =>
      rcases Memory.mem_insertCell.mp hmem with rfl | hm
      · exact ⟨a.isLt, hne⟩
      · exact hc p (Memory.mem_dropCell.mp hm).1

/-- A freshly loaded image of 16 words is canonical. -/
theorem Memory.image_wf {image : List Word} (h : image.length = 16) :
    Memory.wf { image := image, cells := [] } := ⟨h, List.Pairwise.nil, by simp⟩

end Sys2Proof.Machine
end

