-- ==== Sys2Proof/Laws/State.lean ====
section
/-! SUPPORT. The fields of a state after each update: one lemma per field per update, true by rfl. -/

namespace Sys2Proof.Machine

@[simp] theorem State.setAc_pc (v : Word) (s : State) :
    (s.setAc v).pc = s.pc := rfl
@[simp] theorem State.setAc_ac (v : Word) (s : State) :
    (s.setAc v).ac = v := rfl
@[simp] theorem State.setAc_st (v : Word) (s : State) :
    (s.setAc v).st = s.st := rfl
@[simp] theorem State.setAc_mem (v : Word) (s : State) :
    (s.setAc v).mem = s.mem := rfl
@[simp] theorem State.setAc_input (v : Word) (s : State) :
    (s.setAc v).input = s.input := rfl
@[simp] theorem State.setAc_output (v : Word) (s : State) :
    (s.setAc v).output = s.output := rfl
@[simp] theorem State.setAc_trace (v : Word) (s : State) :
    (s.setAc v).trace = s.trace := rfl
@[simp] theorem State.setAc_busSpeed (v : Word) (s : State) :
    (s.setAc v).busSpeed = s.busSpeed := rfl
@[simp] theorem State.setAc_memType (v : Word) (s : State) :
    (s.setAc v).memType = s.memType := rfl

@[simp] theorem State.storeCell_pc (a : CellIndex) (v : Word) (s : State) :
    (s.storeCell a v).pc = s.pc := rfl
@[simp] theorem State.storeCell_ac (a : CellIndex) (v : Word) (s : State) :
    (s.storeCell a v).ac = s.ac := rfl
@[simp] theorem State.storeCell_st (a : CellIndex) (v : Word) (s : State) :
    (s.storeCell a v).st = s.st := rfl
@[simp] theorem State.storeCell_mem (a : CellIndex) (v : Word) (s : State) :
    (s.storeCell a v).mem = s.mem.write a v := rfl
@[simp] theorem State.storeCell_input (a : CellIndex) (v : Word) (s : State) :
    (s.storeCell a v).input = s.input := rfl
@[simp] theorem State.storeCell_output (a : CellIndex) (v : Word) (s : State) :
    (s.storeCell a v).output = s.output := rfl
@[simp] theorem State.storeCell_trace (a : CellIndex) (v : Word) (s : State) :
    (s.storeCell a v).trace = s.trace := rfl
@[simp] theorem State.storeCell_busSpeed (a : CellIndex) (v : Word) (s : State) :
    (s.storeCell a v).busSpeed = s.busSpeed := rfl
@[simp] theorem State.storeCell_memType (a : CellIndex) (v : Word) (s : State) :
    (s.storeCell a v).memType = s.memType := rfl

@[simp] theorem State.setSt_pc (st : RunState) (s : State) :
    (s.setSt st).pc = s.pc := rfl
@[simp] theorem State.setSt_ac (st : RunState) (s : State) :
    (s.setSt st).ac = s.ac := rfl
@[simp] theorem State.setSt_st (st : RunState) (s : State) :
    (s.setSt st).st = st := rfl
@[simp] theorem State.setSt_mem (st : RunState) (s : State) :
    (s.setSt st).mem = s.mem := rfl
@[simp] theorem State.setSt_input (st : RunState) (s : State) :
    (s.setSt st).input = s.input := rfl
@[simp] theorem State.setSt_output (st : RunState) (s : State) :
    (s.setSt st).output = s.output := rfl
@[simp] theorem State.setSt_trace (st : RunState) (s : State) :
    (s.setSt st).trace = s.trace := rfl
@[simp] theorem State.setSt_busSpeed (st : RunState) (s : State) :
    (s.setSt st).busSpeed = s.busSpeed := rfl
@[simp] theorem State.setSt_memType (st : RunState) (s : State) :
    (s.setSt st).memType = s.memType := rfl

@[simp] theorem State.emitOut_pc (v : Word) (s : State) :
    (s.emitOut v).pc = s.pc := rfl
@[simp] theorem State.emitOut_ac (v : Word) (s : State) :
    (s.emitOut v).ac = s.ac := rfl
@[simp] theorem State.emitOut_st (v : Word) (s : State) :
    (s.emitOut v).st = s.st := rfl
@[simp] theorem State.emitOut_mem (v : Word) (s : State) :
    (s.emitOut v).mem = s.mem := rfl
@[simp] theorem State.emitOut_input (v : Word) (s : State) :
    (s.emitOut v).input = s.input := rfl
@[simp] theorem State.emitOut_output (v : Word) (s : State) :
    (s.emitOut v).output = s.output ++ [v] := rfl
@[simp] theorem State.emitOut_trace (v : Word) (s : State) :
    (s.emitOut v).trace = s.trace := rfl
@[simp] theorem State.emitOut_busSpeed (v : Word) (s : State) :
    (s.emitOut v).busSpeed = s.busSpeed := rfl
@[simp] theorem State.emitOut_memType (v : Word) (s : State) :
    (s.emitOut v).memType = s.memType := rfl

@[simp] theorem State.emitTrace_pc (r : Record) (s : State) :
    (s.emitTrace r).pc = s.pc := rfl
@[simp] theorem State.emitTrace_ac (r : Record) (s : State) :
    (s.emitTrace r).ac = s.ac := rfl
@[simp] theorem State.emitTrace_st (r : Record) (s : State) :
    (s.emitTrace r).st = s.st := rfl
@[simp] theorem State.emitTrace_mem (r : Record) (s : State) :
    (s.emitTrace r).mem = s.mem := rfl
@[simp] theorem State.emitTrace_input (r : Record) (s : State) :
    (s.emitTrace r).input = s.input := rfl
@[simp] theorem State.emitTrace_output (r : Record) (s : State) :
    (s.emitTrace r).output = s.output := rfl
@[simp] theorem State.emitTrace_trace (r : Record) (s : State) :
    (s.emitTrace r).trace = s.trace ++ [r] := rfl
@[simp] theorem State.emitTrace_busSpeed (r : Record) (s : State) :
    (s.emitTrace r).busSpeed = s.busSpeed := rfl
@[simp] theorem State.emitTrace_memType (r : Record) (s : State) :
    (s.emitTrace r).memType = s.memType := rfl

@[simp] theorem State.advance_pc (s : State) :
    s.advance.pc = s.pc + 1 := rfl
@[simp] theorem State.advance_ac (s : State) :
    s.advance.ac = s.ac := rfl
@[simp] theorem State.advance_st (s : State) :
    s.advance.st = s.st := rfl
@[simp] theorem State.advance_mem (s : State) :
    s.advance.mem = s.mem := rfl
@[simp] theorem State.advance_input (s : State) :
    s.advance.input = s.input := rfl
@[simp] theorem State.advance_output (s : State) :
    s.advance.output = s.output := rfl
@[simp] theorem State.advance_trace (s : State) :
    s.advance.trace = s.trace := rfl
@[simp] theorem State.advance_busSpeed (s : State) :
    s.advance.busSpeed = s.busSpeed := rfl
@[simp] theorem State.advance_memType (s : State) :
    s.advance.memType = s.memType := rfl

@[simp] theorem State.retire_pc (i : Instr) (v : RecordValue) (s : State) :
    (s.retire i v).pc = s.pc + 1 := rfl
@[simp] theorem State.retire_ac (i : Instr) (v : RecordValue) (s : State) :
    (s.retire i v).ac = s.ac := rfl
@[simp] theorem State.retire_st (i : Instr) (v : RecordValue) (s : State) :
    (s.retire i v).st = s.st := rfl
@[simp] theorem State.retire_mem (i : Instr) (v : RecordValue) (s : State) :
    (s.retire i v).mem = s.mem := rfl
@[simp] theorem State.retire_input (i : Instr) (v : RecordValue) (s : State) :
    (s.retire i v).input = s.input := rfl
@[simp] theorem State.retire_output (i : Instr) (v : RecordValue) (s : State) :
    (s.retire i v).output = s.output := rfl
@[simp] theorem State.retire_trace (i : Instr) (v : RecordValue) (s : State) :
    (s.retire i v).trace = s.trace ++ [.instr i v] := rfl
@[simp] theorem State.retire_busSpeed (i : Instr) (v : RecordValue) (s : State) :
    (s.retire i v).busSpeed = s.busSpeed := rfl
@[simp] theorem State.retire_memType (i : Instr) (v : RecordValue) (s : State) :
    (s.retire i v).memType = s.memType := rfl

@[simp] theorem takeFatal_pc (h : Halt) (s : State) :
    (takeFatal h s).pc = h.nextPc s.pc := rfl
@[simp] theorem takeFatal_ac (h : Halt) (s : State) :
    (takeFatal h s).ac = s.ac := rfl
@[simp] theorem takeFatal_st (h : Halt) (s : State) :
    (takeFatal h s).st = h.terminal := rfl
@[simp] theorem takeFatal_mem (h : Halt) (s : State) :
    (takeFatal h s).mem = s.mem := rfl
@[simp] theorem takeFatal_input (h : Halt) (s : State) :
    (takeFatal h s).input = s.input := rfl
@[simp] theorem takeFatal_output (h : Halt) (s : State) :
    (takeFatal h s).output = s.output := rfl
@[simp] theorem takeFatal_trace (h : Halt) (s : State) :
    (takeFatal h s).trace = s.trace ++ [.err h] := rfl
@[simp] theorem takeFatal_busSpeed (h : Halt) (s : State) :
    (takeFatal h s).busSpeed = s.busSpeed := rfl
@[simp] theorem takeFatal_memType (h : Halt) (s : State) :
    (takeFatal h s).memType = s.memType := rfl

@[simp] theorem hostSupply_pc (items : List InputItem) (s : State) :
    (hostSupply items s).pc = s.pc := rfl
@[simp] theorem hostSupply_ac (items : List InputItem) (s : State) :
    (hostSupply items s).ac = s.ac := rfl
@[simp] theorem hostSupply_st (items : List InputItem) (s : State) :
    (hostSupply items s).st = s.st := rfl
@[simp] theorem hostSupply_mem (items : List InputItem) (s : State) :
    (hostSupply items s).mem = s.mem := rfl
@[simp] theorem hostSupply_input (items : List InputItem) (s : State) :
    (hostSupply items s).input = s.input ++ items := rfl
@[simp] theorem hostSupply_output (items : List InputItem) (s : State) :
    (hostSupply items s).output = s.output := rfl
@[simp] theorem hostSupply_trace (items : List InputItem) (s : State) :
    (hostSupply items s).trace = s.trace := rfl
@[simp] theorem hostSupply_busSpeed (items : List InputItem) (s : State) :
    (hostSupply items s).busSpeed = s.busSpeed := rfl
@[simp] theorem hostSupply_memType (items : List InputItem) (s : State) :
    (hostSupply items s).memType = s.memType := rfl

@[simp] theorem State.resetWith_pc (image : List Word) (input : List InputItem) (b : BusSpeed) (m : MemType) :
    (State.resetWith image input b m).pc = 0 := rfl
@[simp] theorem State.resetWith_ac (image : List Word) (input : List InputItem) (b : BusSpeed) (m : MemType) :
    (State.resetWith image input b m).ac = 0 := rfl
@[simp] theorem State.resetWith_st (image : List Word) (input : List InputItem) (b : BusSpeed) (m : MemType) :
    (State.resetWith image input b m).st = .running := rfl
@[simp] theorem State.resetWith_mem (image : List Word) (input : List InputItem) (b : BusSpeed) (m : MemType) :
    (State.resetWith image input b m).mem = { image := image, cells := [] } := rfl
@[simp] theorem State.resetWith_input (image : List Word) (input : List InputItem) (b : BusSpeed) (m : MemType) :
    (State.resetWith image input b m).input = input := rfl
@[simp] theorem State.resetWith_output (image : List Word) (input : List InputItem) (b : BusSpeed) (m : MemType) :
    (State.resetWith image input b m).output = [] := rfl
@[simp] theorem State.resetWith_trace (image : List Word) (input : List InputItem) (b : BusSpeed) (m : MemType) :
    (State.resetWith image input b m).trace = [] := rfl
@[simp] theorem State.resetWith_busSpeed (image : List Word) (input : List InputItem) (b : BusSpeed) (m : MemType) :
    (State.resetWith image input b m).busSpeed = b := rfl
@[simp] theorem State.resetWith_memType (image : List Word) (input : List InputItem) (b : BusSpeed) (m : MemType) :
    (State.resetWith image input b m).memType = m := rfl

end Sys2Proof.Machine
end

