-- ==== Sys2Proof/Laws/Ops.lean ====
section
/-! SUPPORT. What each shared operation can do: the cell a number or `PC` indexes, taking input, the operand test, and the
word of an instruction. -/

namespace Sys2Proof.Machine

@[simp] theorem cellOf_val (c : CellIndex) : cellOf c.val = some c := by simp [cellOf]

theorem cellOf_eq_some {n : Nat} {c : CellIndex} : cellOf n = some c ↔ n = c.val := by
  constructor
  · intro h
    unfold cellOf at h
    split at h
    · cases h; rfl
    · cases h
  · rintro rfl; exact cellOf_val c

theorem cellOf_eq_none {n : Nat} : cellOf n = none ↔ 16 ≤ n := by
  unfold cellOf; split <;> simp <;> omega

/-- `PC` indexes the cell `c` exactly when it holds `c` as a signed number. -/
theorem pcCell_eq_some {s : State} {c : CellIndex} : pcCell s = some c ↔ s.pc.toInt = (c.val : Int) := by
  unfold pcCell
  split
  · rw [cellOf_eq_some]; omega
  · simp; omega

theorem pcCell_eq_none {s : State} : pcCell s = none ↔ ¬ (0 ≤ s.pc.toInt ∧ s.pc.toInt < 16) := by
  unfold pcCell
  split
  · rw [cellOf_eq_none]; omega
  · simp; omega

/-- One more than a `PC` that indexes a cell: no wrap. -/
theorem toInt_succ_of_cell {w : Word} {c : CellIndex} (h : w.toInt = (c.val : Int)) :
    (w + 1).toInt = (c.val : Int) + 1 := by
  have hc := c.isLt
  have hw : w = BitVec.ofInt 32 (c.val : Int) := by rw [← h, BitVec.ofInt_toInt]
  have h1 : (1 : Word) = BitVec.ofInt 32 1 := rfl
  rw [hw, h1, ← BitVec.ofInt_add, BitVec.toInt_ofInt_eq_self (by decide)] <;> omega

theorem inputNext_nil {s : State} (h : s.input = []) : s.inputNext = none := by
  simp [State.inputNext, h]

theorem inputNext_cons {s : State} {item : InputItem} {rest : List InputItem} (h : s.input = item :: rest) :
    s.inputNext = some (item, { s with input := rest }) := by
  simp [State.inputNext, h]

@[simp] theorem withCell_val (c : CellIndex) (s : State) (k : CellIndex → Host.Outcome State Fault Refusal) :
    withCell c.val s k = k c := by simp [withCell]

theorem withCell_of_ge {a : Nat} (h : 16 ≤ a) (s : State) (k : CellIndex → Host.Outcome State Fault Refusal) :
    withCell a s k = .next (takeFatal (.addressRange a) s) := by
  simp [withCell, cellOf_eq_none.mpr h]

/-- All that the operand test can do: run on the cell, or take `AddressRange`. -/
theorem withCell_cases {a : Nat} {s t : State} {k : CellIndex → Host.Outcome State Fault Refusal}
    (h : withCell a s k = .next t) :
    (∃ c : CellIndex, a = c.val ∧ k c = .next t) ∨ (16 ≤ a ∧ t = takeFatal (.addressRange a) s) := by
  unfold withCell at h
  split at h
  · next c hc => exact .inl ⟨c, cellOf_eq_some.mp hc, h⟩
  · next hn => exact .inr ⟨cellOf_eq_none.mp hn, by cases h; rfl⟩

/-- What `READ` accepts: the integers 0 to 999, unchanged. -/
theorem accepted_eq_some {item : InputItem} {v : Word} (h : item.accepted = some v) :
    ∃ n : Int, item = .int n ∧ 0 ≤ n ∧ n ≤ 999 ∧ v.toInt = n := by
  cases item with
  | invalid => cases h
  | int n =>
    by_cases hn : 0 ≤ n ∧ n ≤ 999
    · rw [InputItem.accepted, if_pos hn] at h
      cases h
      exact ⟨n, rfl, hn.1, hn.2, BitVec.toInt_ofInt_eq_self (by decide) (by omega) (by omega)⟩
    · rw [InputItem.accepted, if_neg hn] at h
      cases h

theorem accepted_eq_none {item : InputItem} :
    item.accepted = none ↔ item = .invalid ∨ ∃ n : Int, item = .int n ∧ ¬ (0 ≤ n ∧ n ≤ 999) := by
  cases item with
  | invalid => simp [InputItem.accepted]
  | int n => simp [InputItem.accepted]

end Sys2Proof.Machine
end

