-- ==== Sys2Proof/Laws/PerInstr.lean ====
section
/-! SUPPORT. One fact per instruction about its encoding: the word read as a number is `opcode*1000 + address` (R50), which
loses nothing in 32 bits where the instruction is well formed. -/

namespace Sys2Proof.Laws

/-- The number a well-formed instruction's word holds, signed. -/
def EncodedValue.Statement (i : Instr) : Prop :=
  i.WellFormed → (encode i).toInt = (i.opcode : Int) * 1000 + (i.address : Int)

theorem EncodedValue.of_opcode_le {i : Instr} (h : i.opcode ≤ 7) : EncodedValue.Statement i := by
  intro hw
  unfold encode
  have hw : i.address ≤ 999 := hw
  have e : BitVec.ofNat 32 (i.opcode * 1000 + i.address) = BitVec.ofInt 32 ((i.opcode * 1000 + i.address : Nat) : Int) :=
    (BitVec.ofInt_natCast _ _).symm
  rw [e, BitVec.toInt_ofInt_eq_self (by decide)] <;> omega

theorem EncodedValue.load (address : Nat) : EncodedValue.Statement (.load address) := of_opcode_le (Nat.le_of_ble_eq_true rfl)
theorem EncodedValue.add (address : Nat) : EncodedValue.Statement (.add address) := of_opcode_le (Nat.le_of_ble_eq_true rfl)
theorem EncodedValue.store (address : Nat) : EncodedValue.Statement (.store address) := of_opcode_le (Nat.le_of_ble_eq_true rfl)
theorem EncodedValue.sub (address : Nat) : EncodedValue.Statement (.sub address) := of_opcode_le (Nat.le_of_ble_eq_true rfl)
theorem EncodedValue.read (address : Nat) : EncodedValue.Statement (.read address) := of_opcode_le (Nat.le_of_ble_eq_true rfl)
theorem EncodedValue.write (address : Nat) : EncodedValue.Statement (.write address) := of_opcode_le (Nat.le_of_ble_eq_true rfl)
theorem EncodedValue.halt (address : Nat) : EncodedValue.Statement (.halt address) := of_opcode_le (Nat.le_of_ble_eq_true rfl)

end Sys2Proof.Laws
end

