-- ==== Sys2Proof/Laws/Step.lean ====
section
/-! SUPPORT. All that an instruction and a step can do, said once: later proofs cite these and unfold no meaning. -/

namespace Sys2Proof.Machine

theorem execLoad_cases {a : Nat} {s t : State} (h : execLoad a s = .next t) :
    (∃ c : CellIndex, a = c.val ∧ t = (s.setAc (s.mem.read c)).retire (.load a) (.word (s.mem.read c))) ∨
      (16 ≤ a ∧ t = takeFatal (.addressRange a) s) := by
  obtain ⟨c, hc, hk⟩ | h' := withCell_cases h
  · exact .inl ⟨c, hc, by cases hk; rfl⟩
  · exact .inr h'

theorem execStore_cases {a : Nat} {s t : State} (h : execStore a s = .next t) :
    (∃ c : CellIndex, a = c.val ∧ t = (s.storeCell c s.ac).retire (.store a) (.word s.ac)) ∨
      (16 ≤ a ∧ t = takeFatal (.addressRange a) s) := by
  obtain ⟨c, hc, hk⟩ | h' := withCell_cases h
  · exact .inl ⟨c, hc, by cases hk; rfl⟩
  · exact .inr h'

theorem execAdd_cases {a : Nat} {s t : State} (h : execAdd a s = .next t) :
    (∃ c : CellIndex, a = c.val ∧ t = accumulate (.add a) (s.ac.toInt + (s.mem.read c).toInt) s) ∨
      (16 ≤ a ∧ t = takeFatal (.addressRange a) s) := by
  obtain ⟨c, hc, hk⟩ | h' := withCell_cases h
  · exact .inl ⟨c, hc, by cases hk; rfl⟩
  · exact .inr h'

theorem execSub_cases {a : Nat} {s t : State} (h : execSub a s = .next t) :
    (∃ c : CellIndex, a = c.val ∧ t = accumulate (.sub a) (s.ac.toInt - (s.mem.read c).toInt) s) ∨
      (16 ≤ a ∧ t = takeFatal (.addressRange a) s) := by
  obtain ⟨c, hc, hk⟩ | h' := withCell_cases h
  · exact .inl ⟨c, hc, by cases hk; rfl⟩
  · exact .inr h'

/-- READ waits, stores a valid item, notes an invalid one, or takes `AddressRange`. -/
theorem execRead_cases {a : Nat} {s t : State} (h : execRead a s = .next t) :
    (∃ c : CellIndex, a = c.val ∧
      ((s.input = [] ∧ t = s) ∨
        ∃ item rest, s.input = item :: rest ∧
          ((∃ v, item.accepted = some v ∧
              t = (State.storeCell c v { s with input := rest }).retire (.read a) (.word v)) ∨
            (item.accepted = none ∧ t = State.retire (.read a) .invalidInput { s with input := rest })))) ∨
      (16 ≤ a ∧ t = takeFatal (.addressRange a) s) := by
  obtain ⟨c, hc, hk⟩ | h' := withCell_cases h
  · refine .inl ⟨c, hc, ?_⟩
    cases hin : s.input with
    | nil =>
      rw [inputNext_nil hin] at hk
      exact .inl ⟨rfl, by cases hk; rfl⟩
    | cons item rest =>
      rw [inputNext_cons hin] at hk
      refine .inr ⟨item, rest, rfl, ?_⟩
      cases hacc : item.accepted with
      | some v => simp only [hacc] at hk; exact .inl ⟨v, rfl, by cases hk; rfl⟩
      | none => simp only [hacc] at hk; exact .inr ⟨rfl, by cases hk; rfl⟩
  · exact .inr h'

theorem execWrite_cases {a : Nat} {s t : State} (h : execWrite a s = .next t) :
    (∃ c : CellIndex, a = c.val ∧ t = (s.emitOut (s.mem.read c)).retire (.write a) (.word (s.mem.read c))) ∨
      (16 ≤ a ∧ t = takeFatal (.addressRange a) s) := by
  obtain ⟨c, hc, hk⟩ | h' := withCell_cases h
  · exact .inl ⟨c, hc, by cases hk; rfl⟩
  · exact .inr h'

theorem execHalt_cases {a : Nat} {s t : State} (h : execHalt a s = .next t) :
    t = (s.setSt .haltedNormal).retire (.halt a) .none := by cases h; rfl

@[simp] theorem accumulate_eq (i : Instr) (n : Int) (s : State) :
    accumulate i n s = (s.setAc (wrapWord n)).retire i (.word (wrapWord n)) := rfl

/-- All that an executed legal word can do, over all seven instructions: the only inversion of `exec` a proof needs. -/
theorem exec_cases {i : Instr} {s t : State} (h : exec i s = .next t) :
    (∃ c : CellIndex, i = .load c.val ∧ t = (s.setAc (s.mem.read c)).retire i (.word (s.mem.read c))) ∨
    (∃ c : CellIndex, ∃ v, (i = .add c.val ∨ i = .sub c.val) ∧ t = (s.setAc v).retire i (.word v)) ∨
    (∃ c : CellIndex, i = .store c.val ∧ t = (s.storeCell c s.ac).retire i (.word s.ac)) ∨
    (∃ c : CellIndex, i = .read c.val ∧ s.input = [] ∧ t = s) ∨
    (∃ c : CellIndex, ∃ item rest, i = .read c.val ∧ s.input = item :: rest ∧
      ((∃ v, item.accepted = some v ∧ t = (State.storeCell c v { s with input := rest }).retire i (.word v)) ∨
       (item.accepted = none ∧ t = State.retire i .invalidInput { s with input := rest }))) ∨
    (∃ c : CellIndex, i = .write c.val ∧ t = (s.emitOut (s.mem.read c)).retire i (.word (s.mem.read c))) ∨
    (∃ a, i = .halt a ∧ t = (s.setSt .haltedNormal).retire i .none) ∨
    (i.opcode ≤ 6 ∧ 16 ≤ i.address ∧ t = takeFatal (.addressRange i.address) s) := by
  cases i with
  | load a =>
    obtain ⟨c, rfl, rfl⟩ | ⟨ha, rfl⟩ := execLoad_cases h
    · exact .inl ⟨c, rfl, rfl⟩
    · exact .inr (.inr (.inr (.inr (.inr (.inr (.inr ⟨by simp [Instr.opcode], ha, rfl⟩))))))
  | add a =>
    obtain ⟨c, rfl, rfl⟩ | ⟨ha, rfl⟩ := execAdd_cases h
    · exact .inr (.inl ⟨c, _, .inl rfl, rfl⟩)
    · exact .inr (.inr (.inr (.inr (.inr (.inr (.inr ⟨by simp [Instr.opcode], ha, rfl⟩))))))
  | sub a =>
    obtain ⟨c, rfl, rfl⟩ | ⟨ha, rfl⟩ := execSub_cases h
    · exact .inr (.inl ⟨c, _, .inr rfl, rfl⟩)
    · exact .inr (.inr (.inr (.inr (.inr (.inr (.inr ⟨by simp [Instr.opcode], ha, rfl⟩))))))
  | store a =>
    obtain ⟨c, rfl, rfl⟩ | ⟨ha, rfl⟩ := execStore_cases h
    · exact .inr (.inr (.inl ⟨c, rfl, rfl⟩))
    · exact .inr (.inr (.inr (.inr (.inr (.inr (.inr ⟨by simp [Instr.opcode], ha, rfl⟩))))))
  | read a =>
    obtain ⟨c, rfl, ⟨hi, rfl⟩ | ⟨item, rest, hi, hh⟩⟩ | ⟨ha, rfl⟩ := execRead_cases h
    · exact .inr (.inr (.inr (.inl ⟨c, rfl, hi, rfl⟩)))
    · exact .inr (.inr (.inr (.inr (.inl ⟨c, item, rest, rfl, hi, hh⟩))))
    · exact .inr (.inr (.inr (.inr (.inr (.inr (.inr ⟨by simp [Instr.opcode], ha, rfl⟩))))))
  | write a =>
    obtain ⟨c, rfl, rfl⟩ | ⟨ha, rfl⟩ := execWrite_cases h
    · exact .inr (.inr (.inr (.inr (.inr (.inl ⟨c, rfl, rfl⟩)))))
    · exact .inr (.inr (.inr (.inr (.inr (.inr (.inr ⟨by simp [Instr.opcode], ha, rfl⟩))))))
  | halt a => exact .inr (.inr (.inr (.inr (.inr (.inr (.inl ⟨a, rfl, execHalt_cases h⟩))))))

/-- All that a step can do: nothing in a terminal state, the bounds halt, or the word of the cell `PC` indexes. -/
theorem step_cases {s t : State} (h : step s = .next t) :
    (s.st ≠ .running ∧ t = s) ∨
      (s.st = .running ∧ pcCell s = none ∧ t = takeFatal (.pcBounds s.pc) s) ∨
      (s.st = .running ∧ ∃ c, pcCell s = some c ∧
        ((∃ w, decode (s.mem.read c) = .unknown w ∧ t = takeFatal (.unknownOpcode w) s) ∨
          ∃ i, decode (s.mem.read c) = .legal i ∧ exec i s = .next t)) := by
  unfold step cycle at h
  split at h
  · next hst =>
    refine .inr ?_
    split at h
    · next hc => exact .inl ⟨hst, hc, by cases h; rfl⟩
    · next c hc =>
      refine .inr ⟨hst, c, hc, ?_⟩
      unfold runWord at h
      split at h
      · next w hw => exact .inl ⟨w, hw, by cases h; rfl⟩
      · next i hi => exact .inr ⟨i, hi, h⟩
  all_goals next hst => exact .inl ⟨by simp [hst], by cases h; rfl⟩

/-- While the engine runs and `PC` indexes a cell, a step runs the word of that cell. -/
theorem step_eq_runWord {s : State} {c : CellIndex} (hst : s.st = .running) (hc : pcCell s = some c) :
    step s = runWord (s.mem.read c) s := by
  simp [step, cycle, hst, hc]

/-- A run of one step more is the run from the next state. -/
theorem run_succ {s t : State} (h : step s = .next t) (n : Nat) :
    Sys2Proof.core.run (n + 1) s = Sys2Proof.core.run n t := by
  have h' : Sys2Proof.core.step s = .next t := h
  simp only [Host.Core.run, h']

end Sys2Proof.Machine
end

