-- ==== Sys2Proof/Tests/Slice0.lean ====
section
/-! SUPPORT. Tests of single words and single steps, whose expected results stand in spec/ (95_test_vectors.md and the rules
named), and a witness for the hypotheses of every statement that has some. -/

namespace Sys2Proof.Machine.Tests

/-- A running state over the all-zero image: `PC`, `AC`, the cells that are not 0, and the input (95_test_vectors.md: "cells not
listed hold 0"). -/
def mk (pc ac : Word) (cells : List (Nat × Word)) (input : List InputItem := []) : State :=
  { State.resetWith (List.replicate 16 0) input .fast .sram with
    pc := pc, ac := ac, mem := { image := List.replicate 16 0, cells := cells } }

/-- The next state, where there is one. -/
def after : Host.Outcome State Fault Refusal → Option State
  | .next s => some s
  | .fault _ => none
  | .refused _ => none

/-! ## Well-formedness: the one check is the address range 0 to 999 (R50) -/

theorem test_wellFormed_refuses_1000 : ¬ (Instr.load 1000).WellFormed := by decide
theorem test_wellFormed_refuses_halt_1000 : ¬ (Instr.halt 1000).WellFormed := by decide
theorem test_wellFormed_takes_999 : (Instr.write 999).WellFormed := by decide

/-! ## Decoding: each row's word written out digit by digit from R50 and R54, opcode then hundreds, tens and units -/

theorem test_decode_load : decode (1 * 1000 + 0 * 100 + 1 * 10 + 5) = .legal (.load 15) := by decide
theorem test_decode_add : decode (2 * 1000 + 0 * 100 + 1 * 10 + 1) = .legal (.add 11) := by decide
theorem test_decode_store : decode (3 * 1000 + 0 * 100 + 0 * 10 + 3) = .legal (.store 3) := by decide
theorem test_decode_sub : decode (4 * 1000 + 0 * 100 + 0 * 10 + 8) = .legal (.sub 8) := by decide
theorem test_decode_read : decode (5 * 1000 + 9 * 100 + 9 * 10 + 9) = .legal (.read 999) := by decide
theorem test_decode_write : decode (6 * 1000 + 5 * 100 + 0 * 10 + 0) = .legal (.write 500) := by decide
theorem test_decode_halt : decode (7 * 1000 + 1 * 100 + 2 * 10 + 3) = .legal (.halt 123) := by decide
/-- V35: an opcode above 7 is unknown whatever its address digits. -/
theorem test_decode_8500 : decode 8500 = .unknown 8500 := by decide
theorem test_decodeTableWord : decodeTableWord 16 5006 = some (.read 6) ∧ decodeTableWord 16 8002 = none := by decide
/-- R58: P1's listing assembles to `DEFAULT_IMAGE`'s first six words. -/
theorem test_assemble_seed :
    assemble [.read 6, .load 6, .add 7, .store 3, .sub 8, .halt] = some [5006, 1006, 2007, 3003, 4008, 7000] := by decide
/-- R58: a line as it is written. -/
theorem test_asm_text : (AsmLine.read 6).text = "READ 6" ∧ AsmLine.halt.text = "HALT" := by decide

/-! ## One step each (95_test_vectors.md section 2) -/

/-- V13: a negative word is loaded unchanged. -/
theorem test_load_V13 :
    (after (step (mk 0 77 [(0, 1009), (9, -4)]))).map (fun s => (s.ac, s.pc)) = some (-4, 1) := by decide
/-- V14: LOAD of its own word. -/
theorem test_load_V14 : (after (step (mk 2 0 [(2, 1002)]))).map (fun s => (s.ac, s.pc)) = some (1002, 3) := by decide
/-- V15: the full word of `AC` reaches the last cell, and `AC` stays. -/
theorem test_store_V15 :
    (after (step (mk 0 123456 [(0, 3015), (15, 1)]))).map (fun s => (s.mem.read 15, s.ac)) = some (123456, 123456) := by
  decide
/-- V17: address 16 stores nothing and ends the run. -/
theorem test_store_V17 :
    (after (step (mk 0 9 [(0, 3016)]))).map (fun s => (s.st, s.pc, s.mem.cells, s.trace)) =
      some (.haltedError, 1, [(0, 3016)], [.err (.addressRange 16)]) := by decide
/-- V19b: the sum wraps. -/
theorem test_add_V19b :
    (after (step (mk 0 2147483647 [(0, 2001), (1, 1)]))).map (·.ac) = some (-2147483648) := by decide
/-- V19a: ADD of its own word. -/
theorem test_add_V19a : (after (step (mk 1 0 [(1, 2001)]))).map (·.ac) = some 2001 := by decide
/-- V19e: accumulator minus memory, not the reverse. -/
theorem test_sub_V19e : (after (step (mk 0 0 [(0, 4004), (4, 9)]))).map (·.ac) = some (-9) := by decide
/-- V19g: the difference wraps. -/
theorem test_sub_V19g :
    (after (step (mk 0 0 [(0, 4001), (1, -2147483648)]))).map (·.ac) = some (-2147483648) := by decide
/-- V20: the item is stored, taken and recorded. -/
theorem test_read_V20 :
    (after (step (mk 0 0 [(0, 5006), (6, 44)] [.int 5]))).map (fun s => (s.mem.read 6, s.input, s.trace)) =
      some (5, [], [.instr (.read 6) (.word 5)]) := by decide
/-- V21: an invalid item is taken, memory stays, the run goes on. -/
theorem test_read_V21 :
    (after (step (mk 0 0 [(0, 5006), (6, 44)] [.invalid, .int 5]))).map (fun s => (s.mem.read 6, s.input, s.st, s.pc)) =
      some (44, [.int 5], .running, 1) := by decide
/-- V28: `OUT` grows at its end, with a negative word. -/
theorem test_write_V28 :
    (after (step { mk 0 0 [(0, 6003), (3, -7)] with output := [1] })).map (fun s => (s.output, s.pc)) =
      some ([1, -7], 1) := by decide
/-- V29a: address 500 emits nothing. -/
theorem test_write_V29a :
    (after (step (mk 0 0 [(0, 6500)]))).map (fun s => (s.output, s.trace)) = some ([], [.err (.addressRange 500)]) := by
  decide
/-- V31: the record of HALT has no value, and `PC` steps. -/
theorem test_halt_V31 :
    (after (step (mk 5 5 [(5, 7000)]))).map (fun s => (s.st, s.pc, s.ac, s.trace)) =
      some (.haltedNormal, 6, 5, [.instr (.halt 0) .none]) := by decide
/-- V32: no address check on HALT. -/
theorem test_halt_V32 : (after (step (mk 0 0 [(0, 7999)]))).map (·.st) = some .haltedNormal := by decide
/-- V25: with `IN` empty nothing changes. -/
theorem test_read_waits_V25 : after (step (mk 0 0 [(0, 5006)])) = some (mk 0 0 [(0, 5006)]) := by decide
/-- V26: a READ out of range takes no item. -/
theorem test_read_range_V26 :
    (after (step (mk 0 0 [(0, 5016)] [.int 5]))).map (fun s => (s.input, s.st)) = some ([.int 5], .haltedError) := by decide
/-- V34: the bounds halt keeps `PC`. -/
theorem test_bounds_V34 :
    (after (step (mk 16 32240 []))).map (fun s => (s.st, s.pc, s.trace)) =
      some (.haltedBounds, 16, [.err (.pcBounds 16)]) := by decide
/-- V37: a negative word is unknown and recorded. -/
theorem test_unknown_V37 :
    (after (step (mk 2 (-9) [(2, -9)]))).map (fun s => (s.st, s.pc, s.trace)) =
      some (.haltedError, 3, [.err (.unknownOpcode (-9))]) := by decide
/-- V38: no cycle in a terminal state. -/
theorem test_terminal_V38 :
    after (step { mk 0 0 [(0, 1009)] with st := .haltedBounds }) = some { mk 0 0 [(0, 1009)] with st := .haltedBounds } := by
  decide

/-! ## Memory form, placement, host moves, timing and numbers -/

/-- Writing the image word back removes the entry (the model's form, log entry 9). -/
theorem test_write_back_removes :
    ((State.reset.mem.write 3 5).write 3 3003) = State.reset.mem := by decide
theorem test_cells_rise : (((mk 0 0 []).mem.write 9 1).write 2 7).cells = [(2, 7), (9, 1)] := by decide
/-- A placed word is the one the first step after reset runs. -/
theorem test_withFetchWord :
    (after (step (State.reset.withFetchWord 16 6003))).map (·.output) = some [3003] := by decide
/-- S6: reset restores the image the run overwrote. -/
theorem test_reset_restores :
    (hostReset [] .slow .dram { State.reset with mem := State.reset.mem.write 3 5, st := .haltedNormal }).map
      (fun s => (s.mem.read 3, s.st)) = some (3003, .running) := by decide
theorem test_report :
    (hostReport { mk 6 5 [(3, 5)] with st := .haltedNormal }).map (fun r => (r.memory.length, r.memory[3]?, r.ac, r.pc)) =
      some (16, some 5, 5, 6) := by decide
/-- P1: six executed cycles spend 720 ms at Slow/DRAM. -/
theorem test_delaySpent : delaySpent { mk 6 5 [] with busSpeed := .slow, memType := .dram } = 720 := by decide
/-- R13, R138: the numbers of states and causes, and R147's info field. -/
theorem test_codes :
    RunState.haltedError.code = 3 ∧ (Record.err (.addressRange 16)).cause.code = 3 ∧
      (Record.instr (.read 6) .invalidInput).cause.code = 4 ∧ (Halt.unknownOpcode (-9)).info = -9 := by decide
/-- R17: the menu numbers, in listing order. -/
theorem test_menu : busSpeedOfMenu 2 = some .medium ∧ busSpeedOfMenu 4 = none ∧ memTypeOfMenu 2 = some .dram := by decide

/-! ## Witnesses: states and operands that meet the hypotheses of each statement, at the edges of their ranges -/

theorem witness_DecodeOfEncode : (Instr.sub 999).WellFormed ∧ (Instr.halt 0).WellFormed := by decide
theorem witness_EncodeOfDecode : decode 1000 = .legal (.load 0) ∧ decode 7999 = .legal (.halt 999) := by decide
theorem witness_DecodeByRange :
    (1000 ≤ (1000 : Word).toInt ∧ (1000 : Word).toInt ≤ 7999) ∧ (1000 ≤ (7999 : Word).toInt ∧ (7999 : Word).toInt ≤ 7999) ∧
      ¬ (1000 ≤ (999 : Word).toInt ∧ (999 : Word).toInt ≤ 7999) ∧
      ¬ (1000 ≤ (8000 : Word).toInt ∧ (8000 : Word).toInt ≤ 7999) := by decide
theorem witness_DecodeUnderEitherDivision :
    decode 7999 = .legal (.halt 999) ∧ decode (-1) = .unknown (-1) ∧ decode 8000 = .unknown 8000 := by decide
theorem witness_ListingsAssemble :
    assembleLine (.write 999) = some 6999 ∧ assembleLine (.write 1000) = none ∧
      assembleLine (.data (-2147483648)) = some (-2147483648) ∧ assembleLine (.data 2147483647) = some 2147483647 ∧
      assembleLine (.data 2147483648) = none ∧ assembleLine (.data (-2147483649)) = none ∧
      assemble [.halt, .data 9] = some [7000, 9] := by decide
theorem witness_StepRunsDecodedInstruction :
    (mk 15 0 [(15, 7000)]).st = .running ∧ (mk 15 0 [(15, 7000)]).pc.toInt = ((15 : CellIndex).val : Int) ∧
      decode ((mk 15 0 [(15, 7000)]).mem.read 15) = .legal (.halt 0) := by decide
theorem witness_UnknownOpcodeHalts :
    (mk 0 0 [(0, 999)]).st = .running ∧ (mk 0 0 [(0, 999)]).pc.toInt = ((0 : CellIndex).val : Int) ∧
      ((mk 0 0 [(0, 999)]).mem.read 0).toInt < 1000 ∧ (mk 15 0 [(15, 8000)]).st = .running ∧
      (mk 15 0 [(15, 8000)]).pc.toInt = ((15 : CellIndex).val : Int) ∧
      7999 < ((mk 15 0 [(15, 8000)]).mem.read 15).toInt := by decide
theorem witness_PcOutOfBoundsHalts :
    (mk 16 0 []).st = .running ∧ ¬ (0 ≤ (mk 16 0 []).pc.toInt ∧ (mk 16 0 []).pc.toInt < 16) ∧ PcInRun (mk 16 0 []) ∧
      ¬ (0 ≤ (mk (-1) 0 []).pc.toInt ∧ (mk (-1) 0 []).pc.toInt < 16) := by decide
theorem witness_TerminalStateStays :
    Terminal { mk 1 0 [] with st := .haltedNormal } ∧ Terminal { mk 16 0 [] with st := .haltedBounds } ∧
      Terminal { mk 1 0 [] with st := .haltedError } := by decide
theorem witness_OutcomeByWordValue :
    ((mk 0 0 [(0, 999)]).mem.read 0).toInt < 1000 ∧ 8000 ≤ ((mk 0 0 [(0, 8000)]).mem.read 0).toInt ∧
      ((mk 0 0 [(0, 1000)]).mem.read 0).toInt = ((1 : Nat) : Int) * 1000 + ((0 : Nat) : Int) ∧
      ((mk 0 0 [(0, 6015)]).mem.read 0).toInt = ((6 : Nat) : Int) * 1000 + ((15 : Nat) : Int) ∧
      ((mk 0 0 [(0, 1016)]).mem.read 0).toInt = ((1 : Nat) : Int) * 1000 + ((16 : Nat) : Int) ∧
      ((mk 0 0 [(0, 6999)]).mem.read 0).toInt = ((6 : Nat) : Int) * 1000 + ((999 : Nat) : Int) ∧
      7000 ≤ ((mk 0 0 [(0, 7000)]).mem.read 0).toInt ∧ ((mk 0 0 [(0, 7999)]).mem.read 0).toInt ≤ 7999 ∧
      (mk 0 0 [(0, 7999)]).st = .running ∧ (mk 0 0 [(0, 7999)]).pc.toInt = ((0 : CellIndex).val : Int) := by decide
theorem witness_ReadValidResult :
    (mk 0 0 [] [.int 0]).input = .int 0 :: [] ∧ (mk 0 0 [] [.int 999, .invalid]).input = .int 999 :: [.invalid] ∧
      (0 : Int) ≤ 999 := by decide
theorem witness_ReadInvalidResult :
    (mk 0 0 [] [.invalid]).input = .invalid :: [] ∧ (mk 0 0 [] [.int (-1)]).input = .int (-1) :: [] ∧
      (mk 0 0 [] [.int 1000]).input = .int 1000 :: [] ∧ (-1 : Int) < 0 ∧ (999 : Int) < 1000 := by decide
theorem witness_AddressRangeHalts :
    16 ≤ 16 ∧ Instr.read 16 ∈ ([.load 16, .add 16, .store 16, .sub 16, .read 16, .write 16] : List Instr) := by decide
/-- One operand pair that overflows upwards under ADD and one that overflows downwards under SUB. -/
theorem witness_AccumulatorWraps :
    (2147483648 : Int) = (mk 0 2147483647 [(1, 1)]).ac.toInt + ((mk 0 2147483647 [(1, 1)]).mem.read 1).toInt ∧
      (-2147483649 : Int) = (mk 0 (-2147483648) [(1, 1)]).ac.toInt - ((mk 0 (-2147483648) [(1, 1)]).mem.read 1).toInt ∧
      (12 : Int) = (mk 0 5 [(1, 7)]).ac.toInt + ((mk 0 5 [(1, 7)]).mem.read 1).toInt := by decide
theorem witness_LoadAddSubFrame :
    (∃ t, exec (.sub 15) (mk 0 5 [(15, 3)]) = .next t ∧ t.ac = 2) ∧
      ∃ t, exec (.load 16) (mk 0 5 []) = .next t ∧ t.ac = 5 := ⟨⟨_, rfl, by decide⟩, ⟨_, rfl, by decide⟩⟩
theorem witness_StoreReadFrame :
    (∃ t, exec (.store 15) (mk 0 5 []) = .next t ∧ cellOf 15 = some 15 ∧ t.mem.read 15 = 5) ∧
      (∃ t, exec (.read 0) (mk 0 0 [] [.int 5]) = .next t ∧ t.mem.read 0 = 5) ∧
      ∃ t, exec (.store 16) (mk 0 5 []) = .next t ∧ cellOf 16 = none ∧ t.st = .haltedError :=
  ⟨⟨_, rfl, by decide, by decide⟩, ⟨_, rfl, by decide⟩, ⟨_, rfl, by decide, by decide⟩⟩
theorem witness_WriteHaltFrame :
    (∃ t, exec (.write 15) (mk 0 5 []) = .next t ∧ t.output = [0]) ∧
      (∃ t, exec (.write 16) (mk 0 5 []) = .next t ∧ t.output = []) ∧
      ∃ t, exec (.halt 999) (mk 0 5 []) = .next t ∧ t.st = .haltedNormal :=
  ⟨⟨_, rfl, by decide⟩, ⟨_, rfl, by decide⟩, ⟨_, rfl, by decide⟩⟩
/-- 20_memory.md R44's worked example at word 1, and the last pair of words with an `AC` that is no legal word. -/
theorem witness_StoredWordIsExecutedNext :
    (mk 1 7000 [(1, 3002)]).st = .running ∧ (2 : CellIndex).val = (1 : CellIndex).val + 1 ∧
      (mk 14 0 [(14, 3015)]).st = .running ∧ (15 : CellIndex).val = (14 : CellIndex).val + 1 ∧
    (mk 1 7000 [(1, 3002)]).pc.toInt = ((1 : CellIndex).val : Int) ∧
      decode ((mk 1 7000 [(1, 3002)]).mem.read 1) = .legal (.store (2 : CellIndex).val) ∧
      decode (mk 1 7000 [(1, 3002)]).ac = .legal (.halt 0) ∧
      (mk 14 0 [(14, 3015)]).pc.toInt = ((14 : CellIndex).val : Int) ∧
      decode ((mk 14 0 [(14, 3015)]).mem.read 14) = .legal (.store (15 : CellIndex).val) ∧
      decode (mk 14 0 [(14, 3015)]).ac = .unknown 0 := by decide
theorem witness_CanonicalMemoriesAgree :
    (State.reset.mem.write 3 5).wf ∧ State.reset.mem.wf ∧ (mk 0 0 [(2, 7), (9, 1)]).mem.wf := by decide
theorem witness_ReadPlantsNoInstruction :
    ∃ t, exec (.read 15) (mk 0 0 [] [.int 999]) = .next t ∧ t.mem.read 15 ≠ (mk 0 0 [] [.int 999]).mem.read 15 :=
  ⟨_, rfl, by decide⟩
/-- For the statements about executed cycles: `PC` at 0 and at 15, and no wait. -/
theorem witness_executedCycle :
    (mk 0 0 [(0, 5006)] [.int 5]).st = .running ∧ (mk 0 0 [(0, 5006)] [.int 5]).pc.toInt = ((0 : CellIndex).val : Int) ∧
      ¬ Waiting (mk 0 0 [(0, 5006)] [.int 5]) ∧
      (mk 15 0 [(15, 8002)] [.int 5]).pc.toInt = ((15 : CellIndex).val : Int) ∧
      ¬ Waiting (mk 15 0 [(15, 8002)] [.int 5]) :=
  ⟨by decide, by decide, fun h => absurd h.2.1 (by decide), by decide, fun h => absurd h.2.1 (by decide)⟩
theorem witness_waiting : Waiting (mk 0 0 [(0, 5006)]) ∧ Waiting (mk 15 0 [(15, 5015)]) :=
  ⟨⟨by decide, by decide, 0, 6, by decide, by decide⟩, ⟨by decide, by decide, 15, 15, by decide, by decide⟩⟩
theorem witness_ReadIsTheOnlyHold :
    (mk 0 0 [(0, 5006)]).st = .running ∧ step (mk 0 0 [(0, 5006)]) = .next (mk 0 0 [(0, 5006)]) := ⟨rfl, rfl⟩
theorem witness_AccumulatorWriters :
    ∃ t, step (mk 0 5 [(0, 2001), (1, 7)]) = .next t ∧ t.ac ≠ (mk 0 5 [(0, 2001), (1, 7)]).ac := ⟨_, rfl, by decide⟩
theorem witness_MemoryWriters :
    ∃ t, step (mk 0 5 [(0, 3015)]) = .next t ∧ t.mem.read 15 ≠ (mk 0 5 [(0, 3015)]).mem.read 15 := ⟨_, rfl, by decide⟩
theorem witness_InputTakenOnlyByRead :
    ∃ t, step (mk 0 0 [(0, 5006)] [.int 5]) = .next t ∧ t.input ≠ (mk 0 0 [(0, 5006)] [.int 5]).input :=
  ⟨_, rfl, by decide⟩
theorem witness_OutputAppendedOnlyByWrite :
    ∃ t, step (mk 0 0 [(0, 6000)]) = .next t ∧ t.output ≠ (mk 0 0 [(0, 6000)]).output := ⟨_, rfl, by decide⟩
theorem witness_RunStateTransitions :
    (∃ t, step (mk 15 0 [(15, 7000)]) = .next t ∧ t.st = .haltedNormal) ∧
      (∃ t, step (mk 16 0 []) = .next t ∧ t.st = .haltedBounds) ∧
      (∃ t, step (mk 0 0 [(0, 1016)]) = .next t ∧ t.st = .haltedError) ∧
      ∃ t, step (mk 0 0 [(0, 1015)]) = .next t ∧ t.st = .running :=
  ⟨⟨_, rfl, by decide⟩, ⟨_, rfl, by decide⟩, ⟨_, rfl, by decide⟩, ⟨_, rfl, by decide⟩⟩
theorem witness_FatalConditionIsPrecise :
    (∃ t, step (mk 16 0 []) = .next t ∧ (t.st = .haltedBounds ∨ t.st = .haltedError)) ∧
      ∃ t, step (mk 15 0 []) = .next t ∧ (t.st = .haltedBounds ∨ t.st = .haltedError) :=
  ⟨⟨_, rfl, by decide⟩, ⟨_, rfl, by decide⟩⟩
theorem witness_RunParametersConstant : ∃ t, step State.reset = .next t := ⟨_, rfl⟩
theorem witness_ConfigurationAffectsNothing :
    ∃ t, Sys2Proof.core.run 1 (mk 0 5 [(0, 2001)]) = .next t ∧ t.pc = 1 := ⟨_, rfl, by decide⟩
theorem witness_SupplyCommutesWithStep :
    ¬ Waiting (mk 0 0 [(0, 5006)] [.int 5]) ∧ ∃ t, step (mk 0 0 [(0, 5006)] [.int 5]) = .next t :=
  ⟨fun h => absurd h.2.1 (by decide), _, rfl⟩
theorem witness_ResetLeaves :
    Config.defaultImage.length = 16 ∧
      decode ((State.resetWith Config.defaultImage [] .slow .dram).mem.read 0) = .legal (.read 6) := by decide
theorem witness_HostResetForgetsTheRun :
    (mk 3 0 []).st = .running ∧ Terminal { mk 3 0 [(3, 5)] with st := .haltedError } ∧
      Terminal { mk 16 9 [] with st := .haltedBounds } ∧
      ({ mk 3 0 [(3, 5)] with st := .haltedError } : State).mem.image =
        ({ mk 16 9 [] with st := .haltedBounds } : State).mem.image := by decide
theorem witness_ReportAfterTheRun : (mk 3 0 []).st = .running ∧ Terminal { mk 6 5 [] with st := .haltedNormal } := by
  decide
theorem witness_OneDelayPerExecutedCycle :
    (mk 16 0 []).st = .running ∧ ¬ (0 ≤ (mk 16 0 []).pc.toInt ∧ (mk 16 0 []).pc.toInt < 16) := by decide
theorem witness_StepKeepsMemoryForm :
    (mk 0 5 [(0, 3015)]).mem.wf ∧ ∃ t, step (mk 0 5 [(0, 3015)]) = .next t := ⟨by decide, _, rfl⟩
theorem witness_StepKeepsPcInRun :
    PcInRun (mk 0 0 []) ∧ PcInRun (mk 16 0 []) ∧ (∃ t, step (mk 0 0 []) = .next t) ∧ ∃ t, step (mk 16 0 []) = .next t :=
  ⟨by decide, by decide, ⟨_, rfl⟩, ⟨_, rfl⟩⟩
/-- The invariant holds in a state one word into a run that has emitted one value. -/
theorem witness_StepKeepsRunInv :
    RunInv { mk 1 0 [(0, 6000)] with output := [6000], trace := [.instr (.write 0) (.word 6000)] } ∧
      ∃ t, step { mk 1 0 [(0, 6000)] with output := [6000], trace := [.instr (.write 0) (.word 6000)] } = .next t :=
  ⟨by decide, _, rfl⟩
theorem witness_RunInvAtReset : Config.defaultImage.length = 16 := by decide
theorem witness_RunEndsWithinSeventeenSteps :
    PcInRun (mk 0 0 [] (List.replicate 16 .invalid)) ∧
      16 - (mk 0 0 [] (List.replicate 16 .invalid)).pc.toInt ≤
        ((mk 0 0 [] (List.replicate 16 .invalid)).input.length : Int) ∧
      PcInRun (mk 16 0 []) ∧ 16 - (mk 16 0 []).pc.toInt ≤ ((mk 16 0 []).input.length : Int) := by decide

end Sys2Proof.Machine.Tests
end

/-! # The state: what a step can do to it (spec/10_state.md)

`Steps s t` says once, relation by relation, all that a step from `s` to `t` can be; `step_eq_next_iff` ties it to `step`.
Each statement about steps below is a case split over it. -/

namespace Sys2Proof.Machine

/-! ## Canonical memories -/

theorem Memory.lookup_eq_some_iff_mem {cells : List (Nat × Word)} (hp : cells.Pairwise fun p q => p.1 < q.1)
    {a : Nat} {w : Word} : cells.lookup a = some w ↔ (a, w) ∈ cells := by
  induction cells with
  | nil => simp
  | cons p rest ih =>
    obtain ⟨b, v⟩ := p
    obtain ⟨hlt, hrest⟩ := List.pairwise_cons.mp hp
    by_cases hab : a = b
    · subst hab
      have hnot : (a, w) ∉ rest := fun hmem => lt_irrefl a (hlt _ hmem)
      simp [hnot, eq_comm]
    · have hbeq : (a == b) = false := by simpa using hab
      simp [List.lookup_cons, hbeq, hab, ih hrest]

/-- A canonical memory lists exactly the cells that differ from the image, with what they read as. -/
theorem Memory.mem_cells_iff {m : Memory} (hm : m.wf) (p : Nat × Word) :
    p ∈ m.cells ↔ ∃ h : p.1 < 16, m.read ⟨p.1, h⟩ = p.2 ∧ p.2 ≠ m.imageWord p.1 := by
  obtain ⟨-, hp, hc⟩ := hm
  constructor
  · intro hmem
    obtain ⟨hlt, hne⟩ := hc p hmem
    exact ⟨hlt, by simp [Memory.read, (lookup_eq_some_iff_mem hp).mpr hmem], hne⟩
  · rintro ⟨hlt, hread, hne⟩
    rw [← lookup_eq_some_iff_mem hp]
    unfold Memory.read at hread
    cases hl : m.cells.lookup p.1 with
    | none => exact absurd (by simpa [hl] using hread.symm) hne
    | some v => simpa [hl] using hread

/-- Lists in strictly rising order of index that have the same entries are equal. -/
theorem Memory.cells_eq_of_mem_iff {k l : List (Nat × Word)} (hk : k.Pairwise fun p q => p.1 < q.1)
    (hl : l.Pairwise fun p q => p.1 < q.1) (h : ∀ p, p ∈ k ↔ p ∈ l) : k = l :=
  haveI : Std.Antisymm fun p q : Nat × Word => p.1 < q.1 := ⟨fun _ _ hpq hqp => absurd hqp hpq.asymm⟩
  haveI : Std.Irrefl fun p q : Nat × Word => p.1 < q.1 := ⟨fun p => lt_irrefl p.1⟩
  hk.eq_of_mem_iff hl h

/-- Settles O29: the listed cells of a canonical memory are determined by what it reads as, and so is their order. -/
theorem canonicalMemoriesAgree : Obligations.CanonicalMemoriesAgree := by
  intro m n hm hn himage hread
  have hword (a : Nat) : m.imageWord a = n.imageWord a := by simp [Memory.imageWord, himage]
  have hmem (p : Nat × Word) : p ∈ m.cells ↔ p ∈ n.cells := by
    simp only [Memory.mem_cells_iff hm, Memory.mem_cells_iff hn, hread, hword]
  obtain ⟨-, hmsorted, -⟩ := hm
  obtain ⟨-, hnsorted, -⟩ := hn
  exact congrArg₂ Memory.mk himage (Memory.cells_eq_of_mem_iff hmsorted hnsorted hmem)

/-! ## The effect of an instruction -/

/-- Step 4 of a cycle that completes (R76): the instruction with an address in range, the value its record shows (R146) and
the state before the record is appended and `PC` steps. -/
inductive Effect (s : State) : Instr → RecordValue → State → Prop
  | load (c : CellIndex) : Effect s (.load c.val) (.word (s.mem.read c)) (s.setAc (s.mem.read c))
  | add (c : CellIndex) : Effect s (.add c.val) (.word (wrapWord (s.ac.toInt + (s.mem.read c).toInt)))
      (s.setAc (wrapWord (s.ac.toInt + (s.mem.read c).toInt)))
  | sub (c : CellIndex) : Effect s (.sub c.val) (.word (wrapWord (s.ac.toInt - (s.mem.read c).toInt)))
      (s.setAc (wrapWord (s.ac.toInt - (s.mem.read c).toInt)))
  | store (c : CellIndex) : Effect s (.store c.val) (.word s.ac) (s.storeCell c s.ac)
  | readValid (c : CellIndex) {item : InputItem} {rest : List InputItem} {v : Word}
      (hin : s.input = item :: rest) (hacc : item.accepted = some v) :
      Effect s (.read c.val) (.word v) (State.storeCell c v { s with input := rest })
  | readInvalid (c : CellIndex) {item : InputItem} {rest : List InputItem}
      (hin : s.input = item :: rest) (hacc : item.accepted = none) :
      Effect s (.read c.val) .invalidInput { s with input := rest }
  | write (c : CellIndex) : Effect s (.write c.val) (.word (s.mem.read c)) (s.emitOut (s.mem.read c))
  | halt (a : Nat) : Effect s (.halt a) .none (s.setSt .haltedNormal)

namespace Effect

variable {s u : State} {i : Instr} {v : RecordValue}

theorem exec_eq (h : Effect s i v u) : exec i s = .next (u.retire i v) := by
  cases h with
  | readValid c hin hacc => simp [exec, execRead, inputNext_cons hin, hacc]
  | readInvalid c hin hacc => simp [exec, execRead, inputNext_cons hin, hacc]
  | load c => exact withCell_val ..
  | add c => exact withCell_val ..
  | sub c => exact withCell_val ..
  | store c => exact withCell_val ..
  | write c => exact withCell_val ..
  | halt a => rfl

theorem pc_eq (h : Effect s i v u) : u.pc = s.pc := by cases h <;> rfl

theorem trace_eq (h : Effect s i v u) : u.trace = s.trace := by cases h <;> rfl

theorem busSpeed_eq (h : Effect s i v u) : u.busSpeed = s.busSpeed := by cases h <;> rfl

theorem memType_eq (h : Effect s i v u) : u.memType = s.memType := by cases h <;> rfl

/-- Only HALT ends the run, and every other instruction that completes has its address in range. -/
theorem st_cases (h : Effect s i v u) :
    ((∃ a, i = .halt a) ∧ u.st = .haltedNormal) ∨
      ((∀ a, i ≠ .halt a) ∧ i.address < 16 ∧ u.st = s.st) := by
  cases h with
  | halt a => exact .inl ⟨⟨a, rfl⟩, rfl⟩
  | load c => exact .inr ⟨by simp, c.isLt, rfl⟩
  | add c => exact .inr ⟨by simp, c.isLt, rfl⟩
  | sub c => exact .inr ⟨by simp, c.isLt, rfl⟩
  | store c => exact .inr ⟨by simp, c.isLt, rfl⟩
  | readValid c => exact .inr ⟨by simp, c.isLt, rfl⟩
  | readInvalid c => exact .inr ⟨by simp, c.isLt, rfl⟩
  | write c => exact .inr ⟨by simp, c.isLt, rfl⟩

theorem mem_eq_or_write (h : Effect s i v u) : u.mem = s.mem ∨ ∃ c w, u.mem = s.mem.write c w := by
  cases h with
  | store c => exact .inr ⟨c, _, rfl⟩
  | readValid c => exact .inr ⟨c, _, rfl⟩
  | _ => exact .inl rfl

theorem ac_changed (h : Effect s i v u) (hne : u.ac ≠ s.ac) :
    ∃ a : CellIndex, i = .load a.val ∨ i = .add a.val ∨ i = .sub a.val := by
  cases h with
  | load c => exact ⟨c, .inl rfl⟩
  | add c => exact ⟨c, .inr (.inl rfl)⟩
  | sub c => exact ⟨c, .inr (.inr rfl)⟩
  | _ => exact absurd rfl hne

theorem input_changed (h : Effect s i v u) (hne : u.input ≠ s.input) :
    ∃ (a : CellIndex) (item : InputItem), i = .read a.val ∧ s.input = item :: u.input := by
  cases h with
  | readValid c hin => exact ⟨c, _, rfl, hin⟩
  | readInvalid c hin => exact ⟨c, _, rfl, hin⟩
  | _ => exact absurd rfl hne

theorem output_changed (h : Effect s i v u) (hne : u.output ≠ s.output) :
    ∃ a : CellIndex, i = .write a.val ∧ u.output = s.output ++ [s.mem.read a] := by
  cases h with
  | write c => exact ⟨c, rfl, rfl⟩
  | _ => exact absurd rfl hne

end Effect

theorem exec_of_address_ge {i : Instr} (ho : i.opcode ≤ 6) (ha : 16 ≤ i.address) (s : State) :
    exec i s = .next (takeFatal (.addressRange i.address) s) := by
  cases i with
  | halt a => simp [Instr.opcode] at ho
  | _ => exact withCell_of_ge ha ..

theorem exec_read_of_input_nil (c : CellIndex) {s : State} (hin : s.input = []) : exec (.read c.val) s = .next s := by
  simp [exec, execRead, inputNext_nil hin]

/-- A legal word waits for input, names no cell, or has an effect. -/
theorem waits_or_out_of_range_or_effect (i : Instr) (s : State) :
    ((∃ c : CellIndex, i = .read c.val) ∧ s.input = []) ∨ (i.opcode ≤ 6 ∧ 16 ≤ i.address) ∨ ∃ v u, Effect s i v u := by
  by_cases hrange : i.opcode ≤ 6 ∧ 16 ≤ i.address
  · exact .inr (.inl hrange)
  have ha (ho : i.opcode ≤ 6) : i.address < 16 := not_le.mp fun hge => hrange ⟨ho, hge⟩
  cases i with
  | load a => exact .inr (.inr ⟨_, _, .load ⟨a, ha (by simp [Instr.opcode])⟩⟩)
  | add a => exact .inr (.inr ⟨_, _, .add ⟨a, ha (by simp [Instr.opcode])⟩⟩)
  | store a => exact .inr (.inr ⟨_, _, .store ⟨a, ha (by simp [Instr.opcode])⟩⟩)
  | sub a => exact .inr (.inr ⟨_, _, .sub ⟨a, ha (by simp [Instr.opcode])⟩⟩)
  | write a => exact .inr (.inr ⟨_, _, .write ⟨a, ha (by simp [Instr.opcode])⟩⟩)
  | halt a => exact .inr (.inr ⟨_, _, .halt a⟩)
  | read a =>
    let c : CellIndex := ⟨a, ha (by simp [Instr.opcode])⟩
    cases hin : s.input with
    | nil => exact .inl ⟨⟨c, rfl⟩, rfl⟩
    | cons item rest =>
      cases hacc : item.accepted with
      | some v => exact .inr (.inr ⟨_, _, .readValid c hin hacc⟩)
      | none => exact .inr (.inr ⟨_, _, .readInvalid c hin hacc⟩)

/-! ## The step relation -/

/-- All that one step can be (R70, R79, R82): nothing in a terminal state, one of the three fatal conditions, the wait of a READ,
or a cycle that completes. -/
inductive Steps (s : State) : State → Prop
  | ended (hst : s.st ≠ .running) : Steps s s
  | pcBounds (hst : s.st = .running) (hc : pcCell s = none) : Steps s (takeFatal (.pcBounds s.pc) s)
  | unknownOpcode (hst : s.st = .running) {c : CellIndex} (hc : pcCell s = some c) {w : Word}
      (hw : decode (s.mem.read c) = .unknown w) : Steps s (takeFatal (.unknownOpcode w) s)
  | addressRange (hst : s.st = .running) {c : CellIndex} (hc : pcCell s = some c) {i : Instr}
      (hi : decode (s.mem.read c) = .legal i) (ho : i.opcode ≤ 6) (ha : 16 ≤ i.address) :
      Steps s (takeFatal (.addressRange i.address) s)
  | wait (hst : s.st = .running) {c a : CellIndex} (hc : pcCell s = some c)
      (hi : decode (s.mem.read c) = .legal (.read a.val)) (hin : s.input = []) : Steps s s
  | retire (hst : s.st = .running) {c : CellIndex} (hc : pcCell s = some c) {i : Instr}
      (hi : decode (s.mem.read c) = .legal i) {v : RecordValue} {u : State} (he : Effect s i v u) :
      Steps s (u.retire i v)

theorem step_of_legal {s : State} {c : CellIndex} {i : Instr} (hst : s.st = .running) (hc : pcCell s = some c)
    (hi : decode (s.mem.read c) = .legal i) : step s = exec i s := by
  simp [step_eq_runWord hst hc, runWord, hi]

theorem step_of_terminal {s : State} (hst : Terminal s) : step s = .next s := by
  unfold step cycle
  cases h : s.st with
  | running => exact absurd h hst
  | _ => rfl

theorem Steps.step_eq {s t : State} (h : Steps s t) : step s = .next t := by
  cases h with
  | ended hst => exact step_of_terminal hst
  | pcBounds hst hc => simp [step, cycle, hst, hc]
  | unknownOpcode hst hc hw => simp [step_eq_runWord hst hc, runWord, hw]
  | addressRange hst hc hi ho ha => rw [step_of_legal hst hc hi, exec_of_address_ge ho ha]
  | wait hst hc hi hin => rw [step_of_legal hst hc hi, exec_read_of_input_nil _ hin]
  | retire hst hc hi he => rw [step_of_legal hst hc hi, he.exec_eq]

theorem exists_steps (s : State) : ∃ t, Steps s t := by
  by_cases hst : s.st = .running
  · cases hc : pcCell s with
    | none => exact ⟨_, .pcBounds hst hc⟩
    | some c =>
      cases hd : decode (s.mem.read c) with
      | unknown w => exact ⟨_, .unknownOpcode hst hc hd⟩
      | legal i =>
        obtain ⟨⟨a, rfl⟩, hin⟩ | ⟨ho, ha⟩ | ⟨v, u, he⟩ := waits_or_out_of_range_or_effect i s
        · exact ⟨_, .wait hst hc hd hin⟩
        · exact ⟨_, .addressRange hst hc hd ho ha⟩
        · exact ⟨_, .retire hst hc hd he⟩
  · exact ⟨_, .ended hst⟩

/-- `step` is a function and the relation is total, so the relation is all of `step`. -/
theorem step_eq_next_iff {s t : State} : step s = .next t ↔ Steps s t := by
  refine ⟨fun h => ?_, Steps.step_eq⟩
  obtain ⟨t', h'⟩ := exists_steps s
  obtain rfl : t' = t := by simpa [h] using h'.step_eq.symm
  exact h'

/-! ## Memory, the program counter and the configuration -/

namespace Steps

variable {s t : State}

theorem mem_eq_or_write (h : Steps s t) : t.mem = s.mem ∨ ∃ c w, t.mem = s.mem.write c w := by
  cases h with
  | retire _ _ _ he => simpa using he.mem_eq_or_write
  | _ => exact .inl rfl

theorem pc_eq_or_succ (h : Steps s t) : t.pc = s.pc ∨ ∃ c, pcCell s = some c ∧ t.pc = s.pc + 1 := by
  cases h with
  | unknownOpcode _ hc => exact .inr ⟨_, hc, rfl⟩
  | addressRange _ hc => exact .inr ⟨_, hc, rfl⟩
  | retire _ hc _ he => exact .inr ⟨_, hc, by simp [he.pc_eq]⟩
  | _ => exact .inl rfl

theorem pcInRun (h : Steps s t) (hs : PcInRun s) : PcInRun t := by
  obtain hpc | ⟨c, hc, hpc⟩ := h.pc_eq_or_succ
  · simpa [PcInRun, hpc] using hs
  · have hsucc := toInt_succ_of_cell (pcCell_eq_some.mp hc)
    have hlt := c.isLt
    simp only [PcInRun, hpc, hsucc]
    omega

theorem config_eq (h : Steps s t) : t.busSpeed = s.busSpeed ∧ t.memType = s.memType := by
  cases h with
  | retire _ _ _ he => exact ⟨he.busSpeed_eq, he.memType_eq⟩
  | _ => exact ⟨rfl, rfl⟩

theorem image_eq (h : Steps s t) : t.mem.image = s.mem.image := by
  obtain hm | ⟨c, w, hm⟩ := h.mem_eq_or_write <;> simp [hm]

theorem mem_wf (h : Steps s t) (hs : s.mem.wf) : t.mem.wf := by
  obtain hm | ⟨c, w, hm⟩ := h.mem_eq_or_write
  · rwa [hm]
  · rw [hm]; exact Memory.write_wf hs c w

end Steps

/-- Settles O49: a step leaves memory alone or writes one cell, and a write keeps the canonical form. -/
theorem stepKeepsMemoryForm : Obligations.StepKeepsMemoryForm :=
  fun _ _ hs h => (step_eq_next_iff.mp h).mem_wf hs

/-- Settles O50: `PC` moves only from a cell, by one. -/
theorem stepKeepsPcInRun : Obligations.StepKeepsPcInRun :=
  fun _ _ hs h => (step_eq_next_iff.mp h).pcInRun hs

/-- Settles O40: no effect touches the configuration, and a write to memory keeps its image. -/
theorem runParametersConstant : Obligations.RunParametersConstant := by
  intro s t h
  obtain ⟨hb, hm⟩ := (step_eq_next_iff.mp h).config_eq
  exact ⟨hb, hm, (step_eq_next_iff.mp h).image_eq⟩

/-! ## Who changes `AC`, `IN` and `OUT` -/

/-- What no fatal condition touches is changed only by an instruction that completes. -/
theorem Steps.effect_of_changed {α : Type} {s t : State} (f : State → α) (hfatal : ∀ h, f (takeFatal h s) = f s)
    (h : Steps s t) (hne : f t ≠ f s) :
    ∃ (c : CellIndex) (i : Instr) (v : RecordValue) (u : State), s.st = .running ∧ s.pc.toInt = (c.val : Int) ∧
      decode (s.mem.read c) = .legal i ∧ Effect s i v u ∧ t = u.retire i v := by
  cases h with
  | ended => exact absurd rfl hne
  | pcBounds => exact absurd (hfatal _) hne
  | unknownOpcode => exact absurd (hfatal _) hne
  | addressRange => exact absurd (hfatal _) hne
  | wait => exact absurd rfl hne
  | retire hst hc hi he => exact ⟨_, _, _, _, hst, pcCell_eq_some.mp hc, hi, he, rfl⟩

/-- Settles O34: fatal conditions leave `AC`, and of the effects only these three set it. -/
theorem accumulatorWriters : Obligations.AccumulatorWriters := by
  intro s t h hne
  obtain ⟨c, i, v, u, hst, hpc, hi, he, rfl⟩ := (step_eq_next_iff.mp h).effect_of_changed State.ac (fun _ => rfl) hne
  obtain ⟨a, ha⟩ := he.ac_changed hne
  exact ⟨c, a, hst, hpc, by simpa [hi] using ha⟩

/-- Settles O36: fatal conditions leave `IN`, and of the effects only READ's takes an item. -/
theorem inputTakenOnlyByRead : Obligations.InputTakenOnlyByRead := by
  intro s t h hne
  obtain ⟨c, i, v, u, hst, hpc, hi, he, rfl⟩ := (step_eq_next_iff.mp h).effect_of_changed State.input (fun _ => rfl) hne
  obtain ⟨a, item, rfl, hin⟩ := he.input_changed hne
  exact ⟨c, a, item, hst, hpc, hi, hin⟩

/-- Settles O37: fatal conditions leave `OUT`, and of the effects only WRITE's emits. -/
theorem outputAppendedOnlyByWrite : Obligations.OutputAppendedOnlyByWrite := by
  intro s t h hne
  obtain ⟨c, i, v, u, hst, hpc, hi, he, rfl⟩ := (step_eq_next_iff.mp h).effect_of_changed State.output (fun _ => rfl) hne
  obtain ⟨a, rfl, hout⟩ := he.output_changed hne
  exact ⟨c, a, hst, hpc, hi, hout⟩

/-! ## The invariant of a run -/

theorem shownState_concat_err (trace : List Record) (h : Halt) : shownState (trace ++ [.err h]) = h.terminal := by
  simp [shownState]

/-- The record of an effect shows the run state it leaves. -/
theorem Effect.shownState_concat {s u : State} {i : Instr} {v : RecordValue} (h : Effect s i v u)
    (hst : s.st = .running) (trace : List Record) : shownState (trace ++ [.instr i v]) = u.st := by
  cases h with
  | halt a => simp [shownState]
  | _ => simp [shownState, hst]

/-- The record of an effect holds the word it emits. -/
theorem Effect.output_eq {s u : State} {i : Instr} {v : RecordValue} (h : Effect s i v u) :
    u.output = s.output ++ [Record.instr i v].filterMap Record.written := by
  cases h with
  | write c => simp [Record.written]
  | _ => exact (List.append_nil _).symm

/-- A run leaves the cells only at 16 (R26). -/
theorem pc_eq_sixteen {s : State} (hs : PcInRun s) (hc : pcCell s = none) : s.pc = 16 := by
  have hout := pcCell_eq_none.mp hc
  have h16 : (16 : Word).toInt = 16 := by decide
  exact BitVec.toInt_inj.mp (by omega)

namespace Steps

variable {s t : State}

theorem streamsAgree (h : Steps s t) (hs : StreamsAgree s) : StreamsAgree t := by
  obtain ⟨hshown, hout⟩ := hs
  have fatal (f : Halt) : StreamsAgree (takeFatal f s) :=
    ⟨by simp [shownState_concat_err], by simp [hout, Record.written]⟩
  cases h with
  | ended => exact ⟨hshown, hout⟩
  | pcBounds => exact fatal _
  | unknownOpcode => exact fatal _
  | addressRange => exact fatal _
  | wait => exact ⟨hshown, hout⟩
  | retire hst _ _ he =>
    exact ⟨by simp [he.trace_eq, he.shownState_concat hst],
      by rw [State.retire_output, State.retire_trace, he.trace_eq, List.filterMap_append, ← hout, he.output_eq]⟩

/-- A cycle that appends one record and steps `PC` keeps the count. -/
theorem traceCounts_of_executed {c : CellIndex} {r : Record} (hst : s.st = .running) (hc : pcCell s = some c)
    (hs : TraceCounts s) (htrace : t.trace = s.trace ++ [r]) (hpc : t.pc = s.pc + 1) (ht : t.st ≠ .haltedBounds) :
    TraceCounts t := by
  obtain ⟨hlen, -⟩ := hs
  have hcell := pcCell_eq_some.mp hc
  have hsucc := toInt_succ_of_cell hcell
  simp only [hst, hcell, reduceCtorEq, if_false] at hlen
  refine ⟨?_, fun hb => absurd hb ht⟩
  simp only [htrace, hpc, hsucc, ht, if_false, List.length_append, List.length_singleton]
  omega

theorem traceCounts (h : Steps s t) (hpc : PcInRun s) (hs : TraceCounts s) : TraceCounts t := by
  cases h with
  | ended => exact hs
  | wait => exact hs
  | pcBounds hst hc =>
    obtain ⟨hlen, -⟩ := hs
    refine ⟨?_, fun _ => pc_eq_sixteen hpc hc⟩
    simpa [hst, Halt.terminal, Halt.nextPc] using hlen
  | unknownOpcode hst hc => exact traceCounts_of_executed hst hc hs rfl rfl (by simp [Halt.terminal])
  | addressRange hst hc => exact traceCounts_of_executed hst hc hs rfl rfl (by simp [Halt.terminal])
  | retire hst hc _ he =>
    refine traceCounts_of_executed hst hc hs (by rw [State.retire_trace, he.trace_eq])
      (by rw [State.retire_pc, he.pc_eq]) ?_
    obtain ⟨-, hu⟩ | ⟨-, -, hu⟩ := he.st_cases <;> simp [hu, hst]

end Steps

/-- Settles O51, clause by clause of the invariant. -/
theorem stepKeepsRunInv : Obligations.StepKeepsRunInv := by
  intro s t ⟨hwf, hpc, hcounts, hstreams⟩ h
  have hstep := step_eq_next_iff.mp h
  exact ⟨hstep.mem_wf hwf, hstep.pcInRun hpc, hstep.traceCounts hpc hcounts, hstep.streamsAgree hstreams⟩

theorem runInv_resetWith {image : List Word} (himage : image.length = 16) (input : List InputItem) (b : BusSpeed)
    (m : MemType) : RunInv (State.resetWith image input b m) :=
  ⟨Memory.image_wf himage, by simp [PcInRun], by simp [TraceCounts], by simp [StreamsAgree, shownState]⟩

/-- Settles O52; `State.reset` is the reset with `DEFAULT_IMAGE`, which has 16 words. -/
theorem runInvAtReset : Obligations.RunInvAtReset :=
  ⟨fun _ input b m himage => runInv_resetWith himage input b m, runInv_resetWith rfl ..⟩

/-- Settles O44, by evaluation of the one fixed state. -/
theorem resetTakesDefaultImage : Obligations.ResetTakesDefaultImage := ⟨by decide, rfl⟩

/-! ## The run state -/

theorem ne_halt_of_opcode_le {i : Instr} (ho : i.opcode ≤ 6) (a : Nat) : i ≠ .halt a := by
  rintro rfl
  simp [Instr.opcode] at ho

/-- Settles O38: in each case of a step from a running state the fetched word decides all three equivalences. -/
theorem runStateTransitions : Obligations.RunStateTransitions := by
  intro s t hst h
  simp only [← pcCell_eq_some, ← pcCell_eq_none]
  cases step_eq_next_iff.mp h with
  | ended hend => exact absurd hst hend
  | pcBounds _ hc => simp [hc, Halt.terminal]
  | unknownOpcode _ hc hw => simp [hc, hw, Halt.terminal]
  | addressRange _ hc hi ho ha =>
    simp [hc, hi, ho, ha, ne_halt_of_opcode_le ho, Halt.terminal]
  | wait _ hc hi => simp [hc, hi, hst, Instr.address]
  | retire _ hc hi he =>
    obtain ⟨⟨a, rfl⟩, hu⟩ | ⟨hhalt, ha, hu⟩ := he.st_cases
    · simp [hc, hi, hu, Instr.opcode]
    · simp [hc, hi, hu, hst, hhalt, ha]

/-! ## The configuration -/

/-- The state with another configuration (R17). -/
def State.withConfig (b : BusSpeed) (m : MemType) (s : State) : State := { s with busSpeed := b, memType := m }

theorem Effect.withConfig {s u : State} {i : Instr} {v : RecordValue} (h : Effect s i v u) (b : BusSpeed) (m : MemType) :
    Effect (s.withConfig b m) i v (u.withConfig b m) := by
  cases h with
  | load c => exact .load c
  | add c => exact .add c
  | sub c => exact .sub c
  | store c => exact .store c
  | readValid c hin hacc => exact .readValid c hin hacc
  | readInvalid c hin hacc => exact .readInvalid c hin hacc
  | write c => exact .write c
  | halt a => exact .halt a

theorem Steps.withConfig {s t : State} (h : Steps s t) (b : BusSpeed) (m : MemType) :
    Steps (s.withConfig b m) (t.withConfig b m) := by
  cases h with
  | ended hst => exact .ended hst
  | pcBounds hst hc => exact .pcBounds (s := s.withConfig b m) hst hc
  | unknownOpcode hst hc hw => exact .unknownOpcode (s := s.withConfig b m) hst hc hw
  | addressRange hst hc hi ho ha => exact .addressRange (s := s.withConfig b m) hst hc hi ho ha
  | wait hst hc hi hin => exact .wait hst hc hi hin
  | retire hst hc hi he => exact .retire (s := s.withConfig b m) hst hc hi (he.withConfig b m)

/-- Settles O41, by induction on the number of steps. -/
theorem configurationAffectsNothing : Obligations.ConfigurationAffectsNothing := by
  intro n
  induction n with
  | zero =>
    intro s t b m h
    cases h
    rfl
  | succ n ih =>
    intro s t b m h
    obtain ⟨u, hu⟩ := exists_steps s
    rw [run_succ hu.step_eq] at h
    exact (run_succ (hu.withConfig b m).step_eq n).trans (ih u t b m h)

/-! ## The length of a run -/

theorem run_of_terminal {s : State} (hst : Terminal s) (n : Nat) : Sys2Proof.core.run n s = .next s := by
  induction n with
  | zero => rfl
  | succ n ih => rw [run_succ (step_of_terminal hst), ih]

theorem takeFatal_terminal (h : Halt) (s : State) : Terminal (takeFatal h s) := by
  cases h <;> simp [Halt.terminal]

theorem Effect.input_length_le {s u : State} {i : Instr} {v : RecordValue} (h : Effect s i v u) :
    s.input.length ≤ u.input.length + 1 := by
  by_cases heq : u.input = s.input
  · simp [heq]
  · obtain ⟨a, item, -, hin⟩ := h.input_changed heq
    simp [hin]

/-- With an item for each cell still to run no READ waits: a running engine halts, or steps `PC` and takes at most one item. -/
theorem Steps.terminal_or_progress {s t : State} (h : Steps s t) (hst : s.st = .running)
    (hin : 16 - s.pc.toInt ≤ (s.input.length : Int)) :
    Terminal t ∨ t.pc.toInt = s.pc.toInt + 1 ∧ s.input.length ≤ t.input.length + 1 := by
  cases h with
  | ended hend => exact absurd hst hend
  | pcBounds => exact .inl (takeFatal_terminal _ _)
  | unknownOpcode => exact .inl (takeFatal_terminal _ _)
  | addressRange => exact .inl (takeFatal_terminal _ _)
  | @wait _ c _ hc _ hnil =>
    have hcell := pcCell_eq_some.mp hc
    have hlt := c.isLt
    simp only [hnil, List.length_nil] at hin
    omega
  | retire _ hc _ he =>
    have hcell := pcCell_eq_some.mp hc
    exact .inr ⟨by rw [State.retire_pc, he.pc_eq, toInt_succ_of_cell hcell, hcell], he.input_length_le⟩

/-- The cells still to run, and one step more for the bounds halt, bound the steps to a terminal state. -/
theorem run_reaches_terminal (n : Nat) : ∀ s : State, PcInRun s → 16 - s.pc.toInt ≤ (s.input.length : Int) →
    17 - s.pc.toInt ≤ (n : Int) → ∃ t, Sys2Proof.core.run n s = .next t ∧ Terminal t := by
  induction n with
  | zero =>
    intro s ⟨_, hle⟩ _ hn
    omega
  | succ n ih =>
    intro s hpc hin hn
    by_cases hst : s.st = .running
    · obtain ⟨t, ht⟩ := exists_steps s
      rw [run_succ ht.step_eq]
      obtain hend | ⟨hsucc, hlen⟩ := ht.terminal_or_progress hst hin
      · exact ⟨t, run_of_terminal hend n, hend⟩
      · exact ih t (ht.pcInRun hpc) (by omega) (by omega)
    · exact ⟨s, run_of_terminal hst _, hst⟩

/-- Settles O53, with `PC` at least 0. -/
theorem runEndsWithinSeventeenSteps : Obligations.RunEndsWithinSeventeenSteps := by
  intro s hpc hin
  exact run_reaches_terminal 17 s hpc hin (by obtain ⟨hge, -⟩ := hpc; omega)

end Sys2Proof.Machine

/-! # The memory: who writes it, and what a later LOAD or fetch sees (spec/20_memory.md) -/

namespace Sys2Proof.Machine

/-- Settles O26, from what a read gives after a write to the same and to another cell. -/
theorem memWriteSetsOneCell : Obligations.MemWriteSetsOneCell :=
  fun s a v => ⟨s.mem.read_write_self a v, fun _ hb => s.mem.read_write_other v hb, rfl, rfl, rfl⟩

/-- Settles O27: both instructions complete on a cell, and a LOAD puts what the written memory reads as into `AC`. -/
theorem storeThenLoad : Obligations.StoreThenLoad := by
  intro c s
  refine ⟨_, (Effect.store c).exec_eq, ⟨_, (Effect.load c).exec_eq, ?_⟩, fun b hb => ⟨_, (Effect.load b).exec_eq, ?_⟩⟩
  · exact s.mem.read_write_self c s.ac
  · exact s.mem.read_write_other s.ac hb

/-- Only a STORE, and a READ that takes a valid item, write memory, and each writes the cell it names. -/
theorem Effect.mem_read_changed {s u : State} {i : Instr} {v : RecordValue} (h : Effect s i v u) {b : CellIndex}
    (hne : u.mem.read b ≠ s.mem.read b) : i = .store b.val ∨ i = .read b.val := by
  have written {c : CellIndex} {w : Word} (hw : (s.mem.write c w).read b ≠ s.mem.read b) : b = c :=
    by_contra fun hbc => hw (s.mem.read_write_other w hbc)
  cases h with
  | store c => exact .inl (by rw [written hne])
  | readValid c => exact .inr (by rw [written hne])
  | _ => exact absurd rfl hne

/-- Settles O35: fatal conditions leave memory, and of the effects only STORE's and READ's write a cell. -/
theorem memoryWriters : Obligations.MemoryWriters := by
  intro s t b h hne
  obtain ⟨c, i, v, u, hst, hpc, hi, he, rfl⟩ :=
    (step_eq_next_iff.mp h).effect_of_changed (fun s => s.mem.read b) (fun _ => rfl) hne
  exact ⟨c, hst, hpc, by simpa [hi] using he.mem_read_changed hne⟩

/-- A STORE into the word after its own leaves a running engine whose `PC` indexes the cell just written. -/
theorem step_store_next_word {s : State} {c d : CellIndex} (hst : s.st = .running) (hpc : s.pc.toInt = (c.val : Int))
    (hd : d.val = c.val + 1) (hi : decode (s.mem.read c) = .legal (.store d.val)) :
    ∃ t, step s = .next t ∧ t.st = .running ∧ pcCell t = some d ∧ t.mem.read d = s.ac := by
  refine ⟨_, (Steps.retire hst (pcCell_eq_some.mpr hpc) hi (.store d)).step_eq, hst, pcCell_eq_some.mpr ?_,
    s.mem.read_write_self d s.ac⟩
  calc (s.pc + 1).toInt = (c.val : Int) + 1 := toInt_succ_of_cell hpc
    _ = (d.val : Int) := by omega

/-- Settles O28: the next fetch reads the stored `AC`, which is run where it is legal and fatal where it is not. -/
theorem storedWordIsExecutedNext : Obligations.StoredWordIsExecutedNext := by
  intro s c d hst hpc hd hi
  obtain ⟨t, hstep, htst, htpc, hfetch⟩ := step_store_next_word hst hpc hd hi
  rw [← hfetch]
  refine ⟨t, hstep, fun i hlegal => ?_, fun w hunknown => ?_⟩
  · exact step_of_legal htst htpc hlegal
  · exact ⟨_, (Steps.unknownOpcode htst htpc hunknown).step_eq, rfl⟩

end Sys2Proof.Machine

/-! # The encoding: words, instructions and assembly lines (spec/30_encoding.md)

`decode_eq_legal_iff` and `decode_eq_unknown_iff` say once what a word decodes to, as linear facts about its signed value; the
statements about decoding follow from them. -/

namespace Sys2Proof

/-! ## The opcode map -/

theorem Instr.one_le_opcode (i : Instr) : 1 ≤ i.opcode := by cases i <;> simp [Instr.opcode]

theorem Instr.opcode_le_seven (i : Instr) : i.opcode ≤ 7 := by cases i <;> simp [Instr.opcode]

/-- The opcode map of R54 and the fields of an instruction (R50) are inverse to each other. -/
theorem Instr.ofOpcode_eq_some_iff {k a : Nat} {i : Instr} :
    Instr.ofOpcode k a = some i ↔ i.opcode = k ∧ i.address = a := by
  constructor
  · intro h
    unfold Instr.ofOpcode at h
    split at h <;> cases h <;> exact ⟨rfl, rfl⟩
  · rintro ⟨rfl, rfl⟩
    cases i <;> rfl

/-- Each of the opcodes 1 to 7 has an instruction with any address field. -/
theorem Instr.exists_of_opcode {k : Nat} (hk : 1 ≤ k) (hk' : k ≤ 7) (a : Nat) :
    ∃ i : Instr, i.opcode = k ∧ i.address = a := by
  interval_cases k
  · exact ⟨.load a, rfl, rfl⟩
  · exact ⟨.add a, rfl, rfl⟩
  · exact ⟨.store a, rfl, rfl⟩
  · exact ⟨.sub a, rfl, rfl⟩
  · exact ⟨.read a, rfl, rfl⟩
  · exact ⟨.write a, rfl, rfl⟩
  · exact ⟨.halt a, rfl, rfl⟩

/-! ## What a word decodes to -/

theorem decode_of_not_inRange {w : Word} (h : ¬ (1000 ≤ w.toInt ∧ w.toInt ≤ 7999)) : decode w = .unknown w := if_neg h

/-- A word decodes to `i` exactly when it holds `opcode*1000 + address` of `i` and the address field has three digits (R50). -/
theorem decode_eq_legal_iff {w : Word} {i : Instr} :
    decode w = .legal i ↔ i.WellFormed ∧ w.toInt = (i.opcode : Int) * 1000 + (i.address : Int) := by
  have hlow := i.one_le_opcode
  have hhigh := i.opcode_le_seven
  have hdigits : (1000 ≤ w.toInt ∧ w.toInt ≤ 7999) ∧
        (i.opcode = w.toInt.toNat / 1000 ∧ i.address = w.toInt.toNat % 1000) ↔
      i.WellFormed ∧ w.toInt = (i.opcode : Int) * 1000 + (i.address : Int) := by
    unfold Instr.WellFormed
    omega
  rw [← hdigits, ← Instr.ofOpcode_eq_some_iff]
  unfold decode
  split
  · next hrange =>
    split
    · next j hj => simp [hrange, hj]
    · next hnone => simp [hnone]
  · next hrange => simp [hrange]

/-- A word in the range of R52 decodes to an instruction. -/
theorem exists_decode_eq_legal {w : Word} (h : 1000 ≤ w.toInt ∧ w.toInt ≤ 7999) : ∃ i, decode w = .legal i := by
  obtain ⟨i, hop, haddr⟩ :=
    Instr.exists_of_opcode (k := w.toInt.toNat / 1000) (by omega) (by omega) (w.toInt.toNat % 1000)
  exact ⟨i, decode_eq_legal_iff.mpr ⟨by unfold Instr.WellFormed; omega, by omega⟩⟩

/-- A word is unknown exactly outside 1000 to 7999, and is kept (R52). -/
theorem decode_eq_unknown_iff {w u : Word} :
    decode w = .unknown u ↔ u = w ∧ ¬ (1000 ≤ w.toInt ∧ w.toInt ≤ 7999) := by
  by_cases h : 1000 ≤ w.toInt ∧ w.toInt ≤ 7999
  · obtain ⟨i, hi⟩ := exists_decode_eq_legal h
    simp [hi, h]
  · simp [decode_of_not_inRange h, h, eq_comm]

/-! ## Decoding and encoding -/

theorem toInt_encode {i : Instr} (h : i.WellFormed) : (encode i).toInt = (i.opcode : Int) * 1000 + (i.address : Int) :=
  Laws.EncodedValue.of_opcode_le i.opcode_le_seven h

/-- Settles O1: the encoding holds `opcode*1000 + address`, which is what the decoder reads. -/
theorem decodeOfEncode : Obligations.DecodeOfEncode :=
  fun _ h => decode_eq_legal_iff.mpr ⟨h, toInt_encode h⟩

/-- Settles O2: the word and the encoding hold the same signed number. -/
theorem encodeOfDecode : Obligations.EncodeOfDecode := by
  intro w i h
  obtain ⟨hwf, hvalue⟩ := decode_eq_legal_iff.mp h
  exact ⟨hwf, BitVec.toInt_inj.mp ((toInt_encode hwf).trans hvalue.symm)⟩

/-- The fields of a decoded instruction are quotient and remainder by 1000 of the word. -/
theorem opcode_address_of_decode {w : Word} {i : Instr} (h : decode w = .legal i) :
    (i.opcode : Int) = w.toInt / 1000 ∧ (i.address : Int) = w.toInt % 1000 := by
  obtain ⟨hwf, hvalue⟩ := decode_eq_legal_iff.mp h
  unfold Instr.WellFormed at hwf
  omega

/-- Settles O3: in the range there is an instruction with the word's digits, outside it there is none. -/
theorem decodeByRange : Obligations.DecodeByRange := by
  refine fun w => ⟨fun hrange => ?_, decode_of_not_inRange⟩
  obtain ⟨i, hi⟩ := exists_decode_eq_legal hrange
  exact ⟨i, hi, opcode_address_of_decode hi⟩

/-- Settles O4: flooring by 1000 is `/` for every word; truncating is `/` where the word is not negative, and elsewhere its
quotient is no opcode. -/
theorem decodeUnderEitherDivision : Obligations.DecodeUnderEitherDivision := by
  intro w
  have hfdiv : w.toInt.fdiv 1000 = w.toInt / 1000 := Int.fdiv_eq_ediv_of_nonneg _ (by decide)
  have hfmod : w.toInt.fmod 1000 = w.toInt % 1000 := Int.fmod_eq_emod_of_nonneg _ (by decide)
  rw [hfdiv, hfmod]
  refine ⟨fun i hi => ?_, fun u hu => ?_⟩
  · obtain ⟨hop, haddr⟩ := opcode_address_of_decode hi
    have hpos : 0 ≤ w.toInt := by omega
    rw [Int.tdiv_eq_ediv_of_nonneg hpos, Int.tmod_eq_emod_of_nonneg hpos]
    exact ⟨hop, haddr, hop, haddr⟩
  · obtain ⟨hkept, hrange⟩ := decode_eq_unknown_iff.mp hu
    refine ⟨hkept, ?_, by omega⟩
    obtain hneg | hpos := lt_or_ge w.toInt 0
    · have hquot : 0 ≤ (-w.toInt).tdiv 1000 := Int.tdiv_nonneg (by omega) (by decide)
      rw [Int.neg_tdiv] at hquot
      omega
    · rw [Int.tdiv_eq_ediv_of_nonneg hpos]
      omega

/-- Settles O5, by evaluation of the eighteen fixed words. -/
theorem specWordsDecode : Obligations.SpecWordsDecode := by
  unfold Obligations.SpecWordsDecode
  decide

/-! ## Assembly -/

/-- A line that stands for an instruction assembles to its word where the operand fits the address field. -/
theorem assembleLine_of_instr {l : AsmLine} {i : Instr} (h : l.instr = some i) :
    assembleLine l = if i.WellFormed then some (encode i) else none := by
  cases l with
  | data n => simp [AsmLine.instr] at h
  | _ => simp [assembleLine, h]

theorem assembleLine_of_wellFormed {l : AsmLine} {i : Instr} (h : l.instr = some i) (hi : i.WellFormed) :
    assembleLine l = some (encode i) := (assembleLine_of_instr h).trans (if_pos hi)

theorem assembleLine_of_not_wellFormed {l : AsmLine} {i : Instr} (h : l.instr = some i) (hi : ¬ i.WellFormed) :
    assembleLine l = none := (assembleLine_of_instr h).trans (if_neg hi)

/-- A `DATA` operand in the range of R58 gives the word that reads back as it. -/
theorem exists_assembleLine_data {n : Int} (h : -2147483648 ≤ n ∧ n ≤ 2147483647) :
    ∃ w, assembleLine (.data n) = some w ∧ w.toInt = n :=
  ⟨BitVec.ofInt 32 n, if_pos h, BitVec.toInt_ofInt_eq_self (by decide) (by omega) (by omega)⟩

theorem assembleLine_data_of_not_inRange {n : Int} (h : ¬ (-2147483648 ≤ n ∧ n ≤ 2147483647)) :
    assembleLine (.data n) = none := if_neg h

/-- A listing assembles line by line, each line to the word at its own position. -/
theorem assemble_eq_some_iff {ls : List AsmLine} {ws : List Word} :
    assemble ls = some ws ↔ List.Forall₂ (fun l w => assembleLine l = some w) ls ws := by
  induction ls generalizing ws with
  | nil => simp [assemble, eq_comm]
  | cons l rest ih =>
    simp only [assemble, Option.bind_eq_some_iff, Option.map_eq_some_iff, List.forall₂_cons_left_iff, ih]
    constructor
    · rintro ⟨w, hw, us, hus, rfl⟩
      exact ⟨w, us, hw, hus, rfl⟩
    · rintro ⟨w, us, hw, hus, rfl⟩
      exact ⟨w, hw, us, hus, rfl⟩

/-- The line at position `i` of a listing assembles to the word at position `i`. -/
theorem getElem?_of_assemble {ls : List AsmLine} {ws : List Word} (h : assemble ls = some ws) {i : Nat} {l : AsmLine}
    (hl : ls[i]? = some l) : ∃ w, ws[i]? = some w ∧ assembleLine l = some w := by
  have hlines := assemble_eq_some_iff.mp h
  obtain ⟨hi, rfl⟩ := List.getElem?_eq_some_iff.mp hl
  have hi' : i < ws.length := hlines.length_eq ▸ hi
  exact ⟨ws[i], List.getElem?_eq_getElem hi', hlines.get hi hi'⟩

/-- Settles O6: an instruction line assembles exactly where its operand is an address field, and a listing line by line. -/
theorem listingsAssemble : Obligations.ListingsAssemble := by
  refine ⟨fun a ha => ?_, fun a ha l hl => ?_, rfl, fun n hlow hhigh => exists_assembleLine_data ⟨hlow, hhigh⟩,
    fun n hn => assembleLine_data_of_not_inRange (by omega),
    fun ls ws h => ⟨(assemble_eq_some_iff.mp h).length_eq.symm, fun i l hl => getElem?_of_assemble h hl⟩⟩
  · have line (k : Nat) {l : AsmLine} {i : Instr} (h : l.instr = some i) (hop : i.opcode = k) (haddr : i.address = a) :
        assembleLine l = some (BitVec.ofNat 32 (k * 1000 + a)) := by
      subst hop haddr
      exact assembleLine_of_wellFormed h ha
    exact ⟨line 1 rfl rfl rfl, line 2 rfl rfl rfl, line 3 rfl rfl rfl, line 4 rfl rfl rfl, line 5 rfl rfl rfl,
      line 6 rfl rfl rfl⟩
  · have line {i : Instr} (h : l.instr = some i) (hi : i.address = a) : assembleLine l = none :=
      assembleLine_of_not_wellFormed h (by unfold Instr.WellFormed; omega)
    simp only [List.mem_cons, List.not_mem_nil, or_false] at hl
    obtain rfl | rfl | rfl | rfl | rfl | rfl := hl <;> exact line rfl rfl

end Sys2Proof

/-! # The outcome of a cycle by the fetched word (spec/30_encoding.md R57) -/

namespace Sys2Proof.Machine

/-- Settles O12: the word's value gives what it decodes to, and that the case of the step. -/
theorem outcomeByWordValue : Obligations.OutcomeByWordValue := by
  intro s c hst hpc
  have hc := pcCell_eq_some.mpr hpc
  refine ⟨fun hw => ?_, fun k a hk hk' ha hw => ?_, fun k a hk hk' ha ha' hw => ?_, fun hw => ?_⟩
  · have hunknown : decode (s.mem.read c) = .unknown (s.mem.read c) := decode_of_not_inRange (by omega)
    exact ⟨_, (Steps.unknownOpcode hst hc hunknown).step_eq, rfl, rfl⟩
  · obtain ⟨i, rfl, rfl⟩ := Instr.exists_of_opcode hk (by omega) a
    have hlegal : decode (s.mem.read c) = .legal i := decode_eq_legal_iff.mpr ⟨by unfold Instr.WellFormed; omega, hw⟩
    exact ⟨i, rfl, rfl, step_of_legal hst hc hlegal⟩
  · obtain ⟨i, rfl, rfl⟩ := Instr.exists_of_opcode hk (by omega) a
    have hlegal : decode (s.mem.read c) = .legal i := decode_eq_legal_iff.mpr ⟨ha', hw⟩
    exact ⟨_, (Steps.addressRange hst hc hlegal hk' ha).step_eq, rfl, rfl⟩
  · have hlegal : decode (s.mem.read c) = .legal (.halt ((s.mem.read c).toInt - 7000).toNat) :=
      decode_eq_legal_iff.mpr (by simp only [Instr.WellFormed, Instr.opcode, Instr.address]; omega)
    exact ⟨_, (Steps.retire hst hc hlegal (.halt _)).step_eq, rfl⟩

end Sys2Proof.Machine

/-! # The cycle: what executes, what waits and what ends the run (spec/40_cycle.md) -/

namespace Sys2Proof.Machine

/-- Settles O7: a running engine fetches the word of the cell that `PC` holds as a signed number. -/
theorem stepRunsDecodedInstruction : Obligations.StepRunsDecodedInstruction :=
  fun _ _ _ hst hpc hi => step_of_legal hst (pcCell_eq_some.mpr hpc) hi

/-- Settles O10; the induction on the number of steps is in `run_of_terminal`. -/
theorem terminalStateStays : Obligations.TerminalStateStays := fun _ n hst => run_of_terminal hst n

/-! ## Executed cycles -/

/-- A cycle on a cell that does not wait steps `PC` and appends one record, an error record exactly when it ends in
`HALTED_ERROR` (R77, R78). -/
theorem Steps.executed {s t : State} {c : CellIndex} (h : Steps s t) (hst : s.st = .running) (hc : pcCell s = some c)
    (hw : ¬ Waiting s) :
    t.pc = s.pc + 1 ∧ ∃ r, t.trace = s.trace ++ [r] ∧ (t.st = .haltedError ↔ ∃ f, r = .err f) := by
  cases h with
  | ended hend => exact absurd hst hend
  | pcBounds _ hnone => simp [hc] at hnone
  | unknownOpcode => exact ⟨rfl, _, rfl, by simp [Halt.terminal]⟩
  | addressRange => exact ⟨rfl, _, rfl, by simp [Halt.terminal]⟩
  | wait _ hc' hi hin => exact absurd ⟨hst, hin, _, _, pcCell_eq_some.mp hc', hi⟩ hw
  | @retire _ _ _ i _ v _ he =>
    refine ⟨by simp [he.pc_eq], .instr i v, by simp [he.trace_eq], ?_⟩
    obtain ⟨-, hu⟩ | ⟨-, -, hu⟩ := he.st_cases <;> simp [hu, hst]

/-- Settles O31: `PC` indexes a cell, so adding one does not wrap. -/
theorem executedCycleAddsOneToPc : Obligations.ExecutedCycleAddsOneToPc := by
  intro s c hst hpc hw
  obtain ⟨t, ht⟩ := exists_steps s
  obtain ⟨hsucc, -⟩ := ht.executed hst (pcCell_eq_some.mpr hpc) hw
  exact ⟨t, ht.step_eq, hsucc ▸ toInt_succ_of_cell hpc⟩

/-- Settles O32, from the record of an executed cycle. -/
theorem executedCycleAppendsOneRecord : Obligations.ExecutedCycleAppendsOneRecord := by
  intro s c hst hpc hw
  obtain ⟨t, ht⟩ := exists_steps s
  obtain ⟨-, r, htrace, herr⟩ := ht.executed hst (pcCell_eq_some.mpr hpc) hw
  exact ⟨t, r, ht.step_eq, htrace, herr⟩

/-- Settles O39: the two run states come only from `takeFatal`, which sets no other field. -/
theorem fatalConditionIsPrecise : Obligations.FatalConditionIsPrecise := by
  intro s t hst h hfatal
  have stepped {c : CellIndex} (hc : pcCell s = some c) :
      ∃ c : CellIndex, s.pc.toInt = (c.val : Int) ∧ (s.pc + 1).toInt = (c.val : Int) + 1 :=
    have hcell := pcCell_eq_some.mp hc
    ⟨c, hcell, toInt_succ_of_cell hcell⟩
  cases step_eq_next_iff.mp h with
  | ended hend => exact absurd hst hend
  | pcBounds => exact ⟨rfl, fun _ => rfl, by simp [Halt.terminal]⟩
  | unknownOpcode _ hc => exact ⟨rfl, by simp [Halt.terminal], fun _ => stepped hc⟩
  | addressRange _ hc => exact ⟨rfl, by simp [Halt.terminal], fun _ => stepped hc⟩
  | wait => simp [hst] at hfatal
  | retire _ _ _ he => obtain ⟨-, hu⟩ | ⟨-, -, hu⟩ := he.st_cases <;> simp [hu, hst] at hfatal

/-! ## Waiting -/

theorem step_of_waiting {s : State} (h : Waiting s) : step s = .next s := by
  obtain ⟨hst, hin, c, a, hpc, hi⟩ := h
  exact (Steps.wait hst (pcCell_eq_some.mpr hpc) hi hin).step_eq

/-- A state that steps to itself stays for any number of steps. -/
theorem run_of_step_self {s : State} (h : step s = .next s) (n : Nat) : Sys2Proof.core.run n s = .next s := by
  induction n with
  | zero => rfl
  | succ n ih => rw [run_succ h, ih]

/-- READ completes with any item, valid or not, and takes it. -/
theorem Effect.exists_read (c : CellIndex) {s : State} {item : InputItem} {rest : List InputItem}
    (hin : s.input = item :: rest) : ∃ v u, Effect s (.read c.val) v u ∧ u.input = rest := by
  cases hacc : item.accepted with
  | some v => exact ⟨_, _, .readValid c hin hacc, rfl⟩
  | none => exact ⟨_, _, .readInvalid c hin hacc, rfl⟩

/-- With an item supplied, the READ that waited completes and takes that item. -/
theorem step_of_waiting_supplied {s : State} (h : Waiting s) (item : InputItem) (rest : List InputItem) :
    ∃ t, step (hostSupply (item :: rest) s) = .next t ∧ t.pc = s.pc + 1 ∧ t.input = rest := by
  obtain ⟨hst, hin, c, a, hpc, hi⟩ := h
  have hsupplied : (hostSupply (item :: rest) s).input = item :: rest := by simp [hin]
  obtain ⟨v, u, he, hrest⟩ := Effect.exists_read a hsupplied
  exact ⟨_, (Steps.retire (s := hostSupply (item :: rest) s) hst (pcCell_eq_some.mpr hpc) hi he).step_eq, by simp [he.pc_eq],
    hrest⟩

/-- A running engine that stands still waits: off the cells a step leaves the run state, and on a cell every cycle that does
not wait steps `PC`. -/
theorem waiting_of_step_self {s : State} (hst : s.st = .running) (h : step s = .next s) : Waiting s := by
  by_contra hw
  cases hc : pcCell s with
  | none =>
    obtain ⟨-, hbounds, -⟩ := runStateTransitions s s hst h
    simpa [hst] using hbounds.mpr (pcCell_eq_none.mp hc)
  | some c =>
    obtain ⟨hsucc, -⟩ := (step_eq_next_iff.mp h).executed hst hc hw
    simp at hsucc

/-- Settles O33, clause by clause. -/
theorem readIsTheOnlyHold : Obligations.ReadIsTheOnlyHold :=
  ⟨fun _ n h => run_of_step_self (step_of_waiting h) n, fun _ item rest h => step_of_waiting_supplied h item rest,
    fun _ => waiting_of_step_self⟩

/-! ## Input supplied early -/

theorem Effect.supply {s u : State} {i : Instr} {v : RecordValue} (h : Effect s i v u) (items : List InputItem) :
    Effect (hostSupply items s) i v (hostSupply items u) := by
  cases h with
  | load c => exact .load c
  | add c => exact .add c
  | sub c => exact .sub c
  | store c => exact .store c
  | readValid c hin hacc => exact .readValid (s := hostSupply items s) c (congrArg (· ++ items) hin) hacc
  | readInvalid c hin hacc => exact .readInvalid (s := hostSupply items s) c (congrArg (· ++ items) hin) hacc
  | write c => exact .write c
  | halt a => exact .halt a

/-- Only a wait looks at whether the items supplied so far have run out. -/
theorem Steps.supply {s t : State} (h : Steps s t) (hw : ¬ Waiting s) (items : List InputItem) :
    Steps (hostSupply items s) (hostSupply items t) := by
  cases h with
  | ended hst => exact .ended hst
  | pcBounds hst hc => exact .pcBounds (s := hostSupply items s) hst hc
  | unknownOpcode hst hc hu => exact .unknownOpcode (s := hostSupply items s) hst hc hu
  | addressRange hst hc hi ho ha => exact .addressRange (s := hostSupply items s) hst hc hi ho ha
  | wait hst hc hi hin => exact absurd ⟨hst, hin, _, _, pcCell_eq_some.mp hc, hi⟩ hw
  | retire hst hc hi he => exact .retire (s := hostSupply items s) hst hc hi (he.supply items)

/-- Settles O42: the supplied states are related by `Steps`, which is `step`. -/
theorem supplyCommutesWithStep : Obligations.SupplyCommutesWithStep :=
  fun _ _ items hw h => ((step_eq_next_iff.mp h).supply hw items).step_eq

end Sys2Proof.Machine

/-! # Data transfer: what LOAD and STORE do, and what the accumulator and memory instructions leave (spec/41_data_transfer.md) -/

namespace Sys2Proof.Machine

/-- Settles O13: LOAD completes on a cell, and its effect is one write of `AC`. -/
theorem loadResult : Obligations.LoadResult := fun c _ => (Effect.load c).exec_eq

/-- Settles O15: STORE completes on a cell, and its effect is one write of memory. -/
theorem storeResult : Obligations.StoreResult :=
  fun c s => ⟨_, (Effect.store c).exec_eq, fun b => s.mem.read_write c b s.ac, rfl⟩

/-- LOAD, ADD and SUB write `AC` and retire with the word written, or take `AddressRange`. -/
theorem exec_loadAddSub_cases {a : Nat} {s t : State} {i : Instr} (hi : i ∈ ([.load a, .add a, .sub a] : List Instr))
    (h : exec i s = .next t) :
    (a < 16 ∧ ∃ v, t = (s.setAc v).retire i (.word v)) ∨ (16 ≤ a ∧ t = takeFatal (.addressRange a) s) := by
  simp only [List.mem_cons, List.not_mem_nil, or_false] at hi
  obtain rfl | rfl | rfl := hi
  · exact (execLoad_cases h).imp_left fun ⟨c, hc, ht⟩ => ⟨hc ▸ c.isLt, _, ht⟩
  · exact (execAdd_cases h).imp_left fun ⟨c, hc, ht⟩ => ⟨hc ▸ c.isLt, _, ht⟩
  · exact (execSub_cases h).imp_left fun ⟨c, hc, ht⟩ => ⟨hc ▸ c.isLt, _, ht⟩

/-- Settles O23: a write of `AC`, retiring and `AddressRange` all leave memory, `IN`, `OUT` and the configuration. -/
theorem loadAddSubFrame : Obligations.LoadAddSubFrame := by
  intro a s t i hi h
  obtain ⟨ha, v, rfl⟩ | ⟨ha, rfl⟩ := exec_loadAddSub_cases hi h
  · exact ⟨fun _ => rfl, rfl, rfl, rfl, rfl, rfl, fun _ => rfl, fun hge => absurd ha (not_lt.mpr hge)⟩
  · exact ⟨fun _ => rfl, rfl, rfl, rfl, rfl, rfl, fun hlt => absurd hlt (not_lt.mpr ha), fun _ => rfl⟩

/-- STORE and READ write at most the cell they name, and besides memory change only `IN` (READ alone), `TRACE` and `PC`; or they
take `AddressRange`. -/
theorem exec_storeRead_cases {a : Nat} {s t : State} {i : Instr} (hi : i ∈ ([.store a, .read a] : List Instr))
    (h : exec i s = .next t) :
    (∃ c : CellIndex, a = c.val ∧ (t.mem = s.mem ∨ ∃ w, t.mem = s.mem.write c w) ∧ (i = .store a → t.input = s.input) ∧
        t = { s with mem := t.mem, input := t.input, trace := t.trace, pc := t.pc }) ∨
      (16 ≤ a ∧ t = takeFatal (.addressRange a) s) := by
  simp only [List.mem_cons, List.not_mem_nil, or_false] at hi
  obtain rfl | rfl := hi
  · exact (execStore_cases h).imp_left fun ⟨c, hc, ht⟩ => ⟨c, hc, by subst ht; exact ⟨.inr ⟨_, rfl⟩, fun _ => rfl, rfl⟩⟩
  · refine (execRead_cases h).imp_left fun ⟨c, hc, hread⟩ => ⟨c, hc, ?_⟩
    obtain ⟨-, rfl⟩ | ⟨item, rest, -, ⟨v, -, rfl⟩ | ⟨-, rfl⟩⟩ := hread
    · exact ⟨.inl rfl, by simp, rfl⟩
    · exact ⟨.inr ⟨v, rfl⟩, by simp, rfl⟩
    · exact ⟨.inl rfl, by simp, rfl⟩

/-- Settles O24: in range memory is written in at most the one cell `cellOf a`, and `AddressRange` leaves memory and `IN`. -/
theorem storeReadFrame : Obligations.StoreReadFrame := by
  intro a s t i hi h
  obtain ⟨c, rfl, hmem, hin, ht⟩ | ⟨ha, rfl⟩ := exec_storeRead_cases hi h
  · have ⟨himage, hread⟩ : t.mem.image = s.mem.image ∧ ∀ b, b ≠ c → t.mem.read b = s.mem.read b := by
      obtain hkept | ⟨w, hwritten⟩ := hmem
      · exact hkept ▸ ⟨rfl, fun _ _ => rfl⟩
      · exact hwritten ▸ ⟨s.mem.write_image c w, fun _ => s.mem.read_write_other w⟩
    refine ⟨fun d hd b hb => hread b ?_, fun hnone => ?_, himage, by rw [ht], by rw [ht], by rw [ht], by rw [ht], hin,
      fun _ => by rw [ht], fun hge => absurd c.isLt (not_lt.mpr hge)⟩
    · rwa [Fin.ext (cellOf_eq_some.mp hd)]
    · simp at hnone
  · exact ⟨fun _ _ _ _ => rfl, fun _ _ => rfl, rfl, rfl, rfl, rfl, rfl, fun _ => rfl,
      fun hlt => absurd hlt (not_lt.mpr ha), fun _ => rfl⟩

end Sys2Proof.Machine

/-! # Arithmetic: ADD and SUB put the exact result, wrapped, into `AC` (spec/42_arithmetic.md) -/

namespace Sys2Proof.Machine

/-! ## `wrap_W` -/

theorem wrapWord_toInt_add (x y : Word) : wrapWord (x.toInt + y.toInt) = x + y :=
  BitVec.eq_of_toInt_eq ((BitVec.toInt_ofInt _).trans (BitVec.toInt_add x y).symm)

theorem wrapWord_toInt_sub (x y : Word) : wrapWord (x.toInt - y.toInt) = x - y :=
  BitVec.eq_of_toInt_eq ((BitVec.toInt_ofInt _).trans BitVec.toInt_sub.symm)

theorem toInt_wrapWord_emod (n : Int) : (wrapWord n).toInt % 4294967296 = n % 4294967296 :=
  (congrArg (· % 4294967296) (BitVec.toInt_ofInt n)).trans Int.bmod_emod

theorem toInt_wrapWord_of_fits {n : Int} (h : -2147483648 ≤ n ∧ n ≤ 2147483647) : (wrapWord n).toInt = n :=
  have ⟨hlo, hhi⟩ := h
  BitVec.toInt_ofInt_eq_self (by decide) hlo (Int.lt_add_one_of_le hhi)

/-! ## The two instructions -/

/-- Settles O14: ADD completes on a cell, and the wrapped exact sum is the sum of the words. -/
theorem addResult : Obligations.AddResult := by
  intro c s
  rw [← wrapWord_toInt_add s.ac (s.mem.read c)]
  exact (Effect.add c).exec_eq

/-- Settles O16: SUB completes on a cell, and the wrapped exact difference is the difference of the words. -/
theorem subResult : Obligations.SubResult := by
  intro c s
  rw [← wrapWord_toInt_sub s.ac (s.mem.read c)]
  exact (Effect.sub c).exec_eq

/-- Settles O22: both instructions leave `wrapWord n` in `AC`, `n` the exact result, and the rest is what `wrapWord` does. -/
theorem accumulatorWraps : Obligations.AccumulatorWraps := by
  intro c s i n hi
  have hexec : exec i s = .next ((s.setAc (wrapWord n)).retire i (.word (wrapWord n))) := by
    obtain ⟨rfl, rfl⟩ | ⟨rfl, rfl⟩ := hi
    · exact (Effect.add c).exec_eq
    · exact (Effect.sub c).exec_eq
  exact ⟨_, hexec, toInt_wrapWord_emod n, BitVec.le_toInt (wrapWord n), Int.le_of_lt_add_one BitVec.toInt_lt,
    toInt_wrapWord_of_fits⟩

end Sys2Proof.Machine

/-! # Input and output: what READ stores and WRITE emits, and what WRITE and HALT leave (spec/43_io.md) -/

namespace Sys2Proof.Machine

/-! ## READ -/

/-- An integer in 0 to 999 is accepted, as the word that holds it (R110). -/
theorem exists_accepted_int {v : Int} (hlow : 0 ≤ v) (hhigh : v ≤ 999) :
    ∃ w, (InputItem.int v).accepted = some w ∧ w.toInt = v :=
  ⟨BitVec.ofInt 32 v, if_pos ⟨hlow, hhigh⟩, BitVec.toInt_ofInt_eq_self (by decide) (by omega) (by omega)⟩

/-- Settles O17: READ completes with the accepted item, and its effect is one write of memory. -/
theorem readValidResult : Obligations.ReadValidResult := by
  intro c s v rest hin hlow hhigh
  obtain ⟨w, hacc, hw⟩ := exists_accepted_int hlow hhigh
  exact ⟨_, w, (Effect.readValid c hin hacc).exec_eq, hw, fun b => s.mem.read_write c b w, rfl⟩

/-- A cell that a READ changes holds the accepted value of an item: a wait, an invalid item and `AddressRange` leave memory. -/
theorem exists_accepted_of_read_changed {a : Nat} {s t : State} (h : exec (.read a) s = .next t) {b : CellIndex}
    (hne : t.mem.read b ≠ s.mem.read b) : ∃ item : InputItem, item.accepted = some (t.mem.read b) := by
  obtain ⟨c, -, ⟨-, rfl⟩ | ⟨item, rest, -, ⟨v, hacc, rfl⟩ | ⟨-, rfl⟩⟩⟩ | ⟨-, rfl⟩ := execRead_cases h
  · exact absurd rfl hne
  · obtain rfl : b = c := by_contra fun hbc => hne (s.mem.read_write_other v hbc)
    exact ⟨item, hacc.trans (congrArg some (s.mem.read_write_self b v).symm)⟩
  · exact absurd rfl hne
  · exact absurd rfl hne

/-- Settles O30: what READ accepts lies below every legal word. -/
theorem readPlantsNoInstruction : Obligations.ReadPlantsNoInstruction := by
  intro a s t h b hne
  obtain ⟨item, hacc⟩ := exists_accepted_of_read_changed h hne
  obtain ⟨n, -, hlow, hhigh, hvalue⟩ := accepted_eq_some hacc
  exact ⟨by omega, by omega, decode_of_not_inRange (by omega)⟩

/-! ## WRITE and HALT -/

/-- Settles O19: WRITE completes on a cell, and its effect is one word emitted. -/
theorem writeResult : Obligations.WriteResult := fun c _ => (Effect.write c).exec_eq

/-- Settles O25: emitting a word, setting `ST`, retiring and `AddressRange` all leave memory, `AC`, `IN` and the
configuration. -/
theorem writeHaltFrame : Obligations.WriteHaltFrame := by
  intro a s t i hi h
  simp only [List.mem_cons, List.not_mem_nil, or_false] at hi
  obtain rfl | rfl := hi
  · obtain ⟨c, rfl, rfl⟩ | ⟨ha, rfl⟩ := execWrite_cases h
    · exact ⟨fun _ => rfl, rfl, rfl, rfl, rfl, rfl, by simp, fun _ _ => rfl, fun _ hge => absurd c.isLt (not_lt.mpr hge)⟩
    · exact ⟨fun _ => rfl, rfl, rfl, rfl, rfl, rfl, by simp, fun _ hlt => absurd hlt (not_lt.mpr ha), fun _ _ => rfl⟩
  · obtain rfl := execHalt_cases h
    exact ⟨fun _ => rfl, rfl, rfl, rfl, rfl, rfl, fun _ => rfl, by simp, by simp⟩

end Sys2Proof.Machine

/-! # Control: HALT ends the run (spec/44_control.md) -/

namespace Sys2Proof.Machine

/-- Settles O20: HALT completes at any address, and its effect is `ST` set to `HALTED_NORMAL`. -/
theorem haltResult : Obligations.HaltResult := fun a _ => (Effect.halt a).exec_eq

end Sys2Proof.Machine

/-! # Exceptions: what ends the run, what only notes, and the report after it (spec/60_exceptions.md) -/

namespace Sys2Proof.Machine

/-- Settles O11; that the cases of a step leave none out is in `exists_steps`. -/
theorem everyStepAnswersNext : Obligations.EveryStepAnswersNext := fun s =>
  (exists_steps s).imp fun _ h => h.step_eq

/-! ## The fatal conditions -/

/-- Settles O21: each of the six has an opcode of at most 6 and `a` as its address. -/
theorem addressRangeHalts : Obligations.AddressRangeHalts := by
  intro a s ha i hi
  obtain ⟨ho, rfl⟩ : i.opcode ≤ 6 ∧ i.address = a := by
    simp only [List.mem_cons, List.not_mem_nil, or_false] at hi
    obtain rfl | rfl | rfl | rfl | rfl | rfl := hi <;> exact ⟨by simp [Instr.opcode], rfl⟩
  exact exec_of_address_ge ho ha s

/-- Settles O8: such a word lies outside the range of legal words, so it decodes as unknown. -/
theorem unknownOpcodeHalts : Obligations.UnknownOpcodeHalts := by
  intro s c hst hpc hw
  have hunknown : decode (s.mem.read c) = .unknown (s.mem.read c) := decode_of_not_inRange (by omega)
  exact (Steps.unknownOpcode hst (pcCell_eq_some.mpr hpc) hunknown).step_eq

/-- Settles O9: `PC` indexes no cell, and 16 is the only such value that a run reaches. -/
theorem pcOutOfBoundsHalts : Obligations.PcOutOfBoundsHalts := by
  intro s hst hpc
  have hc := pcCell_eq_none.mpr hpc
  exact ⟨(Steps.pcBounds hst hc).step_eq, fun hs => pc_eq_sixteen hs hc⟩

/-! ## Invalid input -/

/-- Settles O18: the item is one that READ does not accept, and the effect is to take it. -/
theorem readInvalidResult : Obligations.ReadInvalidResult := by
  intro c s item rest hin hitem
  have hacc : item.accepted = none :=
    accepted_eq_none.mpr (hitem.imp_right fun ⟨v, hv, hout⟩ => ⟨v, hv, by omega⟩)
  exact (Effect.readInvalid c hin hacc).exec_eq

/-! ## The final report -/

@[simp] theorem Memory.length_words (m : Memory) : m.words.length = 16 := by simp [Memory.words]

@[simp] theorem Memory.getElem?_words (m : Memory) (a : CellIndex) : m.words[a.val]? = some (m.read a) := by
  simp [Memory.words]

theorem hostReport_of_running {s : State} (hst : s.st = .running) : hostReport s = none := by simp [hostReport, hst]

theorem hostReport_of_terminal {s : State} (hst : Terminal s) : hostReport s = some ⟨s.mem.words, s.ac, s.pc⟩ := by
  unfold hostReport
  cases h : s.st with
  | running => exact absurd h hst
  | _ => rfl

/-- Settles O46: the words of the report are those that memory reads as, cell by cell. -/
theorem reportAfterTheRun : Obligations.ReportAfterTheRun := fun s =>
  ⟨hostReport_of_running, fun hst =>
    ⟨s.mem.words, hostReport_of_terminal hst, s.mem.length_words, s.mem.getElem?_words⟩⟩

end Sys2Proof.Machine

/-! # Reset, and the delay as data (spec/70_reset_and_hazards.md) -/

namespace Sys2Proof.Machine

/-! ## The delay -/

/-- Settles O47, by evaluation of the table. -/
theorem delayTable : Obligations.DelayTable := by
  unfold Obligations.DelayTable
  decide

/-- A word that is not negative as a signed number is the same number unsigned. -/
theorem toNat_eq_of_toInt_eq {w : Word} {n : Nat} (h : w.toInt = (n : Int)) : w.toNat = n := by
  have hw := BitVec.toInt_eq_toNat_cond w
  have hlt := w.isLt
  split at hw <;> omega

theorem toNat_succ_of_cell {w : Word} {c : CellIndex} (h : w.toInt = (c.val : Int)) : (w + 1).toNat = w.toNat + 1 :=
  calc (w + 1).toNat = c.val + 1 := toNat_eq_of_toInt_eq (by exact_mod_cast toInt_succ_of_cell h)
    _ = w.toNat + 1 := by rw [toNat_eq_of_toInt_eq h]

/-- An executed cycle adds one `DELAY` of the run's configuration (R177). -/
theorem Steps.delaySpent_of_executed {s t : State} {c : CellIndex} (h : Steps s t) (hst : s.st = .running)
    (hpc : s.pc.toInt = (c.val : Int)) (hw : ¬ Waiting s) :
    delaySpent t = delaySpent s + delay s.busSpeed s.memType := by
  obtain ⟨hsucc, -⟩ := h.executed hst (pcCell_eq_some.mpr hpc) hw
  obtain ⟨hb, hm⟩ := h.config_eq
  calc delaySpent t = (s.pc + 1).toNat * delay s.busSpeed s.memType := by rw [delaySpent, hsucc, hb, hm]
    _ = (s.pc.toNat + 1) * delay s.busSpeed s.memType := by rw [toNat_succ_of_cell hpc]
    _ = delaySpent s + delay s.busSpeed s.memType := Nat.succ_mul ..

/-- Settles O48: an executed cycle adds one to `PC` without a wrap and keeps the configuration; the bounds halt keeps both. -/
theorem oneDelayPerExecutedCycle : Obligations.OneDelayPerExecutedCycle := by
  constructor
  · intro s c hst hpc hw
    obtain ⟨t, ht⟩ := exists_steps s
    exact ⟨t, ht.step_eq, ht.delaySpent_of_executed hst hpc hw⟩
  · intro s hst hpc
    exact ⟨_, (Steps.pcBounds hst (pcCell_eq_none.mpr hpc)).step_eq, rfl⟩

/-! ## Reset -/

/-- After reset each cell reads as its word of the image (R160); the 16 words are what makes the image have one. -/
theorem getElem?_image_eq_read_resetWith {image : List Word} (himage : image.length = 16) (input : List InputItem)
    (b : BusSpeed) (m : MemType) (a : CellIndex) :
    image[a.val]? = some ((State.resetWith image input b m).mem.read a) := by
  have ha : a.val < image.length := himage.symm ▸ a.isLt
  simp [ha]

/-- The first step after reset runs word 0 (R160, R162). -/
theorem step_resetWith {image : List Word} {input : List InputItem} {b : BusSpeed} {m : MemType} {i : Instr}
    (hi : decode ((State.resetWith image input b m).mem.read 0) = .legal i) :
    step (State.resetWith image input b m) = exec i (State.resetWith image input b m) :=
  step_of_legal rfl (pcCell_eq_some.mpr rfl) hi

/-- Settles O43: the registers, the streams and the configuration stand in `State.resetWith`; the cells and the first step have
their lemmas above. -/
theorem resetLeaves : Obligations.ResetLeaves := fun _ input b m =>
  ⟨rfl, rfl, rfl, fun himage => getElem?_image_eq_read_resetWith himage input b m, rfl, rfl, rfl, rfl, rfl,
    fun _ hi => step_resetWith hi⟩

theorem hostReset_of_running {s : State} (hst : s.st = .running) (input : List InputItem) (b : BusSpeed) (m : MemType) :
    hostReset input b m s = none := by simp [hostReset, hst]

theorem hostReset_of_terminal {s : State} (hst : Terminal s) (input : List InputItem) (b : BusSpeed) (m : MemType) :
    hostReset input b m s = some (State.resetWith s.mem.image input b m) := by
  unfold hostReset
  cases h : s.st with
  | running => exact absurd h hst
  | _ => rfl

/-- Settles O45: of the old run a reset reads the image alone, so equal images give equal resets. -/
theorem hostResetForgetsTheRun : Obligations.HostResetForgetsTheRun := by
  intro s s' input b m
  refine ⟨fun hst => hostReset_of_running hst input b m, fun hst => hostReset_of_terminal hst input b m,
    fun hst hst' himage => ?_⟩
  rw [hostReset_of_terminal hst, hostReset_of_terminal hst', himage]

end Sys2Proof.Machine
